-- ==== Sys2Proof/Word.lean ====
section
/-! DEFINITION. The one word type of the block: the 8-bit byte (00_scope.md R6, BYTE_WIDTH). -/

namespace Sys2Proof

/-- "A byte is an unsigned integer 0..255" (R8). Addresses, tile indices and lengths are
unbounded natural numbers (R8, R50) and are plain `Nat`. -/
abbrev Byte := BitVec 8

end Sys2Proof
end

