-- ==== Sys2Proof/Syntax.lean ====
section
/-! DEFINITION. The commands of the block (30_encoding.md R70 to R79), their opcodes, the
registers READ_REG names (10_state.md R35), and what the host presents on the command port. -/

namespace Sys2Proof

/-- One command as the host presents it on the input ports (R70): the CMD byte, the scalar
operand ARG and the sequence operand DATA_IN with its length. ARG is a natural number (R73);
an element of DATA_IN is a natural number, a byte or a pixel by the opcode (R74). -/
structure Command where
  cmd    : Byte
  arg    : Nat
  dataIn : List Nat
deriving DecidableEq, Repr

/-- The opcodes, one for each row of the opcode map (R72). -/
inductive Opcode where
  | parse | decode | encode | tileOffset | readTile | writeTile | readReg | readRom
deriving DecidableEq, Repr

/-- The commands with their operands assembled, one constructor for each row of
spec/opcode_table.json. An operand port the opcode does not use has no place in it (R75). -/
inductive Instr where
  /-- PARSE, DATA_IN = `buf` (R130). -/
  | parse (buf : List Byte)
  /-- DECODE, DATA_IN = `enc` (R101). -/
  | decode (enc : List Byte)
  /-- ENCODE, DATA_IN = `flat` (R102). -/
  | encode (flat : List Nat)
  /-- TILE_OFFSET, ARG = `n` (R161). -/
  | tileOffset (n : Nat)
  /-- READ_TILE, ARG = `n` (R163). -/
  | readTile (n : Nat)
  /-- WRITE_TILE, ARG = `n`, DATA_IN = `flat` (R164). -/
  | writeTile (n : Nat) (flat : List Nat)
  /-- READ_REG, ARG = `r`, a register number; reserved numbers are checked when it runs (R167). -/
  | readReg (r : Nat)
  /-- READ_ROM, ARG = `a`, a byte address (R168). -/
  | readRom (a : Nat)
deriving DecidableEq, Repr

/-- The opcode of a command. -/
def Instr.opcode : Instr → Opcode
  | .parse _       => .parse
  | .decode _      => .decode
  | .encode _      => .encode
  | .tileOffset _  => .tileOffset
  | .readTile _    => .readTile
  | .writeTile _ _ => .writeTile
  | .readReg _     => .readReg
  | .readRom _     => .readRom

/-- The twelve state registers (10_state.md R23 to R34). -/
inductive Reg where
  | romValid | romLength | dataOffset | headerPresent
  | prgRomSize | chrRomSize | flags6 | flags7 | prgRamSize | flags9 | flags10 | mapper
deriving DecidableEq, Repr

end Sys2Proof
end

