-- ==== Sys2Proof/Config.lean ====
section
/-! DEFINITION. The parameters the spec leaves open (00_scope.md R7). -/

namespace Sys2Proof

/-- The three named parameters of R7, which "a model takes as an argument"; `none` is unbounded.
They are fixed for one machine: State carries them and no step changes them (log 3). -/
structure Params where
  /-- ARG_WIDTH: width in bits of the ARG operand port (D16). -/
  argWidth : Option Nat
  /-- PIXEL_IN_WIDTH: width in bits of one element of a flat tile presented to ENCODE or
  WRITE_TILE, at least 2 (D17). -/
  pixelInWidth : Option Nat
  /-- ROM_CAPACITY: largest ROM buffer length PARSE accepts (D29). -/
  romCapacity : Option Nat
deriving DecidableEq, Repr

/-- The reference values, R7's last column but one: all unbounded. -/
def Params.reference : Params := ⟨none, none, none⟩

/-- R7: PIXEL_IN_WIDTH is "at least 2". -/
def Params.wf (p : Params) : Bool :=
  match p.pixelInWidth with
  | none => true
  | some w => decide (2 ≤ w)

/-- Whether the natural number `v` can be presented on a port of the given width. -/
def fitsWidth (width : Option Nat) (v : Nat) : Bool :=
  match width with
  | none => true
  | some w => decide (v < 2 ^ w)

/-- Whether a length is within a capacity. -/
def fitsCapacity (capacity : Option Nat) (n : Nat) : Bool :=
  match capacity with
  | none => true
  | some c => decide (n ≤ c)

end Sys2Proof
end

