-- ==== Sys2Proof/WellFormed.lean ====
section
/-! DEFINITION. Which commands can be presented at all: the limits of R7, R74 and R137. -/

namespace Sys2Proof

/-- Why a command is ill-formed: the spec gives it no meaning, and it reaches no status code. -/
inductive IllFormed where
  /-- A DATA_IN element above 255 for PARSE or DECODE: "must refuse a command with an element
  above 255 as ill-formed; it must not reduce the element" (R74, U12). -/
  | byteElementTooWide
  /-- A pixel of 2^PIXEL_IN_WIDTH or more for ENCODE or WRITE_TILE (R74, U11). -/
  | pixelElementTooWide
  /-- An ARG the opcode uses, of 2^ARG_WIDTH or more (R7, U10). -/
  | argTooWide
  /-- A PARSE buffer longer than ROM_CAPACITY: "a refusal, not a status code" (R137, U9). -/
  | romCapacityExceeded
deriving DecidableEq, Repr

/-- The first presentation limit a command breaks, `none` for a well-formed one. Only operand
ports the opcode uses are looked at (R75). Elements above 255 are refused by the decoder
already, for there the operand is still a sequence of natural numbers. Which limit is named when a
command breaks two is the model's choice (log 11). -/
def Instr.illFormed? (p : Params) : Instr → Option IllFormed
  | .parse buf =>
    if fitsCapacity p.romCapacity buf.length then none else some .romCapacityExceeded
  | .decode _ => none
  | .encode flat =>
    if flat.all (fitsWidth p.pixelInWidth) then none else some .pixelElementTooWide
  | .tileOffset n => if fitsWidth p.argWidth n then none else some .argTooWide
  | .readTile n => if fitsWidth p.argWidth n then none else some .argTooWide
  | .writeTile n flat =>
    if !fitsWidth p.argWidth n then some .argTooWide
    else if flat.all (fitsWidth p.pixelInWidth) then none else some .pixelElementTooWide
  | .readReg r => if fitsWidth p.argWidth r then none else some .argTooWide
  | .readRom a => if fitsWidth p.argWidth a then none else some .argTooWide

/-- The command can be presented on ports and to a ROM of these parameters. -/
def Instr.wellFormed (p : Params) (i : Instr) : Bool := (i.illFormed? p).isNone

end Sys2Proof
end

