-- ==== Sys2Proof/Decode.lean ====
section
/-! DEFINITION. The decoder and the encoder of the command port (30_encoding.md R71 to R76). -/

namespace Sys2Proof

/-- The opcode map of R72 (and spec/opcode_table.json): CMD byte and opcode, one row each. -/
def opcodeTable : List (Byte × Opcode) :=
  [ (0x01, .parse)
  , (0x02, .decode)
  , (0x03, .encode)
  , (0x04, .tileOffset)
  , (0x05, .readTile)
  , (0x06, .writeTile)
  , (0x07, .readReg)
  , (0x08, .readRom) ]

/-- "Match is CMD = OPC exactly, with mask 0xFF" (R72): the first row whose byte is `b`. -/
def lookupOpcode (b : Byte) : List (Byte × Opcode) → Option Opcode
  | [] => none
  | (c, op) :: rows => if c = b then some op else lookupOpcode b rows

/-- The opcode of a CMD byte; `none` for the reserved values 0x00 and 0x09 to 0xFF (R76). -/
def opcodeOfByte (b : Byte) : Option Opcode := lookupOpcode b opcodeTable

/-- The CMD byte of an opcode (R72). -/
def opcodeByte : Opcode → Byte
  | .parse      => 0x01
  | .decode     => 0x02
  | .encode     => 0x03
  | .tileOffset => 0x04
  | .readTile   => 0x05
  | .writeTile  => 0x06
  | .readReg    => 0x07
  | .readRom    => 0x08

/-- DATA_IN as a byte sequence; `none` when an element is above 255, which is refused and never
reduced (R74). -/
def bytesOfDataIn : List Nat → Option (List Byte)
  | [] => some []
  | v :: vs =>
    match bytesOfDataIn vs with
    | none => none
    | some bs => if v < 256 then some (BitVec.ofNat 8 v :: bs) else none

/-- What the decoder answers for a presented command. -/
inductive Decoded where
  /-- A command with its operands. -/
  | instr (i : Instr)
  /-- A reserved OPC: the command ends with status IllegalCommand (R76). -/
  | reserved
  /-- A byte sequence that is none (R74): the command is refused. -/
  | illFormed (why : IllFormed)
deriving DecidableEq, Repr

/-- Operand assembly for the two commands whose DATA_IN is a byte sequence. -/
def decodeBytes (mk : List Byte → Instr) (dataIn : List Nat) : Decoded :=
  match bytesOfDataIn dataIn with
  | some bs => .instr (mk bs)
  | none => .illFormed .byteElementTooWide

/-- The decoder: total on every CMD byte, ARG and DATA_IN. ARG is "used as it stands" (R73), and
a port the opcode does not use is not looked at (R75). -/
def decode (c : Command) : Decoded :=
  match opcodeOfByte c.cmd with
  | none             => .reserved
  | some .parse      => decodeBytes .parse c.dataIn
  | some .decode     => decodeBytes .decode c.dataIn
  | some .encode     => .instr (.encode c.dataIn)
  | some .tileOffset => .instr (.tileOffset c.arg)
  | some .readTile   => .instr (.readTile c.arg)
  | some .writeTile  => .instr (.writeTile c.arg c.dataIn)
  | some .readReg    => .instr (.readReg c.arg)
  | some .readRom    => .instr (.readRom c.arg)

/-- The command that presents an instruction: its CMD byte of R72 and its operands on the ports
that carry them; a port it does not use is idle (0 and the empty sequence). -/
def encode : Instr → Command
  | .parse buf        => ⟨opcodeByte .parse, 0, buf.map BitVec.toNat⟩
  | .decode enc       => ⟨opcodeByte .decode, 0, enc.map BitVec.toNat⟩
  | .encode flat      => ⟨opcodeByte .encode, 0, flat⟩
  | .tileOffset n     => ⟨opcodeByte .tileOffset, n, []⟩
  | .readTile n       => ⟨opcodeByte .readTile, n, []⟩
  | .writeTile n flat => ⟨opcodeByte .writeTile, n, flat⟩
  | .readReg r        => ⟨opcodeByte .readReg, r, []⟩
  | .readRom a        => ⟨opcodeByte .readRom, a, []⟩

/-- A table word as a command: the CMD byte, with both operand ports zero (the table gives the
operands no bits, log 18). -/
def commandOfTableWord (w : Nat) : Command := ⟨BitVec.ofNat 8 w, 0, []⟩

/-- The instruction the decoder reads from a table word: every command word is one 8-bit CMD byte
(R71, R77), so a word of another length is none. -/
def decodeTableWord (nbits w : Nat) : Option Instr :=
  if nbits = 8 ∧ w < 256 then
    match decode (commandOfTableWord w) with
    | .instr i     => some i
    | .reserved    => none
    | .illFormed _ => none
  else none

end Sys2Proof
end

