-- ==== Sys2Proof/Machine/State.lean ====
section
/-! DEFINITION. The state of the block (10_state.md R20), the command and response ports around it,
and the reasons a step can stop. -/

namespace Sys2Proof.Machine

/-- The ROM memory (20_memory.md R50) as cells in rising address order. An address not listed
does not exist: before the first PARSE "ROM is the empty sequence", and a ROM of length L has
exactly the addresses 0..L-1 (log 6). -/
abbrev Memory := List Host.Cell

/-- The address order of two neighbouring cells. -/
def Memory.rising (addrs : List Nat) : Bool :=
  match addrs with
  | [] => true
  | a :: rest => rest.all (fun b => decide (a < b)) && Memory.rising rest

/-- The canonical form: addresses strictly rising. An unlisted address has no value, so no listed
byte can equal it. -/
def Memory.wf (m : Memory) : Bool := Memory.rising (m.map Prod.fst)

/-- The error causes of 60_exceptions.md R200, that is every STATUS but OK. -/
inductive ErrorCause where
  /-- PARSE: the magic is present and the buffer is shorter than 16 bytes (R136). -/
  | malformedHeader
  /-- READ_TILE, WRITE_TILE: the tile span ends past the ROM (R162); READ_ROM: the address is past it. -/
  | indexOutOfRange
  /-- DECODE given other than 16 bytes; ENCODE or WRITE_TILE given other than 64 pixels. -/
  | invalidInputSize
  /-- A reserved OPC (R76), or a reserved register number for READ_REG (R167). -/
  | illegalCommand
  /-- A ROM-dependent command before any successful PARSE. -/
  | noRom
  /-- READ_REG of a header field on a headerless ROM. -/
  | noHeader
deriving DecidableEq, Repr

/-- What a command that ends with OK returns (R11): nothing, a scalar on RESULT, or a sequence on
DATA_OUT. -/
inductive Output where
  | none
  | result (v : Nat)
  | dataOut (vs : List Nat)
deriving DecidableEq, Repr

/-- The response of one command (R11): `Resp = ok(out) | err(code)`. -/
inductive Response where
  | ok (out : Output)
  | err (cause : ErrorCause)
deriving DecidableEq, Repr

/-- The machine. The first thirteen fields are the block's whole architectural state, R20's
tuple; the last three are the model's own (log 1, 2, 3). -/
structure State where
  /-- ROM_VALID (R23): a ROM is installed. -/
  romValid : Bool
  /-- ROM, the ROM memory (R50). -/
  rom : Memory
  /-- ROM_LENGTH (R24): the length of the installed ROM. -/
  romLength : Nat
  /-- DATA_OFFSET (R25): where tile data begins, 16 or 0. -/
  dataOffset : Nat
  /-- HEADER_PRESENT (R26). -/
  headerPresent : Bool
  /-- PRG_ROM_SIZE (R27), header byte 4 as PARSE read it. -/
  prgRomSize : Byte
  /-- CHR_ROM_SIZE (R28), header byte 5. -/
  chrRomSize : Byte
  /-- FLAGS6 (R29), header byte 6. -/
  flags6 : Byte
  /-- FLAGS7 (R30), header byte 7. -/
  flags7 : Byte
  /-- PRG_RAM_SIZE (R31), header byte 8. -/
  prgRamSize : Byte
  /-- FLAGS9 (R32), header byte 9. -/
  flags9 : Byte
  /-- FLAGS10 (R33), header byte 10. -/
  flags10 : Byte
  /-- MAPPER (R34), stored with the fields (R133). -/
  mapper : Byte
  /-- The commands the host has yet to present, the next one first (R22: "a program is a finite
  list of commands, and its k-th command is step k of the run"). -/
  program : List Command
  /-- What stands on STATUS, RESULT and DATA_OUT after the last step (R70); `none` when that step
  presented no command. No command reads it (R21). -/
  response : Option Response
  /-- The open parameters (R7), fixed for one machine. -/
  params : Params
deriving DecidableEq, Repr

/-- A step that stops the machine. -/
inductive Fault where
  /-- An access to an address the ROM memory does not list. READ_TILE, WRITE_TILE and READ_ROM
  raise it when ROM_LENGTH claims an address that is not there, which R20's `ROM_LENGTH =
  len(ROM)` rules out. Safe: no state that keeps the invariant reaches it (log 6). -/
  | romAddressAbsent
deriving DecidableEq, Repr

/-- A presented command that has no meaning. -/
inductive Refusal where
  /-- An instruction the model gives no meaning yet; exec's arm raises it. Safe. -/
  | notModelled (mnemonic : String)
  /-- A command that the spec calls ill-formed or not presentable (R7, R74, R137); the command
  port raises it before the command runs. Safe: the machine stops, with no status code. -/
  | illFormed (why : IllFormed)
deriving DecidableEq, Repr

/-- The state after reset, for any values of the open parameters (R230; every register at the
reset value of R35). No command is waiting and no response stands on the ports. -/
def State.resetWith (p : Params) : State where
  romValid := false
  rom := []
  romLength := 0
  dataOffset := 0
  headerPresent := false
  prgRomSize := 0
  chrRomSize := 0
  flags6 := 0
  flags7 := 0
  prgRamSize := 0
  flags9 := 0
  flags10 := 0
  mapper := 0
  program := []
  response := none
  params := p

/-- The machine right after reset, at the reference parameters of R7. -/
def State.reset : State := State.resetWith Params.reference

end Sys2Proof.Machine
end

