-- ==== Sys2Proof/Machine/Operands.lean ====
section
/-! DEFINITION. Operand forms: bit and pixel fields (00_scope.md R8, R13), and the register number
operand of READ_REG (10_state.md R35). -/

namespace Sys2Proof.Machine

/-- `bit(b, i)`, which is `(b >> i) & 1` (R8). -/
def bit (b : Byte) (i : Nat) : Nat := (b.toNat >>> i) &&& 1

/-- Element `y*8 + x` of a flat tile, the pixel in column x of row y (R13), masked to its low two
bits: "`flat[y*8+x] & 3`; higher bits ignored" (R102). -/
def pixelAt (flat : List Nat) (y x : Nat) : Nat := flat.getD (y * 8 + x) 0 &&& 3

/-- Byte `i` of a byte sequence that is known to be long enough. -/
def byteAt (bytes : List Byte) (i : Nat) : Byte := bytes.getD i 0

/-- The register of a register number; `none` for the reserved numbers 0xC and above (R35). -/
def regOfNumber (r : Nat) : Option Reg :=
  match r with
  | 0x0 => some .romValid
  | 0x1 => some .romLength
  | 0x2 => some .dataOffset
  | 0x3 => some .headerPresent
  | 0x4 => some .prgRomSize
  | 0x5 => some .chrRomSize
  | 0x6 => some .flags6
  | 0x7 => some .flags7
  | 0x8 => some .prgRamSize
  | 0x9 => some .flags9
  | 0xA => some .flags10
  | 0xB => some .mapper
  | _   => none

/-- The register number of a register (R35). -/
def regNumber : Reg → Nat
  | .romValid      => 0x0
  | .romLength     => 0x1
  | .dataOffset    => 0x2
  | .headerPresent => 0x3
  | .prgRomSize    => 0x4
  | .chrRomSize    => 0x5
  | .flags6        => 0x6
  | .flags7        => 0x7
  | .prgRamSize    => 0x8
  | .flags9        => 0x9
  | .flags10       => 0xA
  | .mapper        => 0xB

/-- R35's column "needs ROM_VALID": every register but ROM_VALID itself. -/
def regNeedsRom : Reg → Bool
  | .romValid => false
  | .romLength | .dataOffset | .headerPresent
  | .prgRomSize | .chrRomSize | .flags6 | .flags7
  | .prgRamSize | .flags9 | .flags10 | .mapper => true

/-- R35's column "needs HEADER_PRESENT": the header fields and MAPPER. -/
def regNeedsHeader : Reg → Bool
  | .romValid | .romLength | .dataOffset | .headerPresent => false
  | .prgRomSize | .chrRomSize | .flags6 | .flags7
  | .prgRamSize | .flags9 | .flags10 | .mapper => true

/-- The value of a register as the natural number READ_REG returns (R167). -/
def regValue (g : Reg) (s : State) : Nat :=
  match g with
  | .romValid      => s.romValid.toNat
  | .romLength     => s.romLength
  | .dataOffset    => s.dataOffset
  | .headerPresent => s.headerPresent.toNat
  | .prgRomSize    => s.prgRomSize.toNat
  | .chrRomSize    => s.chrRomSize.toNat
  | .flags6        => s.flags6.toNat
  | .flags7        => s.flags7.toNat
  | .prgRamSize    => s.prgRamSize.toNat
  | .flags9        => s.flags9.toNat
  | .flags10       => s.flags10.toNat
  | .mapper        => s.mapper.toNat

end Sys2Proof.Machine
end

