-- ==== Sys2Proof/Machine/Flags.lean ====
section
/-! DEFINITION. The named fields of the header flag bytes (10_state.md R29, R30, R32) and MAPPER
(R34). The block has no condition codes (R38). The fields are read-only views that change no
behaviour (D36); only MAPPER_LO and MAPPER_HI are used, to form MAPPER. -/

namespace Sys2Proof.Machine

/-- FLAGS6 bit 0, MIRRORING: "horizontal mirroring 0x01" (R29). -/
def mirroring (flags6 : Byte) : Bool := flags6.getLsbD 0
/-- FLAGS6 bit 1, BATTERY: "battery RAM 0x02" (R29). -/
def battery (flags6 : Byte) : Bool := flags6.getLsbD 1
/-- FLAGS6 bit 2, TRAINER: no effect on DATA_OFFSET (R29, R135). -/
def trainer (flags6 : Byte) : Bool := flags6.getLsbD 2
/-- FLAGS6 bit 3, FOUR_SCREEN: "four-screen VRAM 0x08" (R29). -/
def fourScreen (flags6 : Byte) : Bool := flags6.getLsbD 3
/-- FLAGS6 bits 7:4, MAPPER_LO (R29). -/
def mapperLo (flags6 : Byte) : BitVec 4 := flags6.extractLsb' 4 4
/-- FLAGS7 bit 0, VS_SYSTEM: "VS system cart 0x01" (R30). -/
def vsSystem (flags7 : Byte) : Bool := flags7.getLsbD 0
/-- FLAGS7 bits 7:4, MAPPER_HI (R30). -/
def mapperHi (flags7 : Byte) : BitVec 4 := flags7.extractLsb' 4 4
/-- FLAGS9 bit 0, PAL: "PAL cart 0x01" (R32). -/
def pal (flags9 : Byte) : Bool := flags9.getLsbD 0

/-- MAPPER: `(FLAGS6 >> 4) | (FLAGS7 & 0xF0)`, an 8-bit value (R34, R133). -/
def mapperOf (flags6 flags7 : Byte) : Byte := (flags6 >>> 4) ||| (flags7 &&& 0xF0)

end Sys2Proof.Machine
end

