-- ==== Sys2Proof/Machine/Ops.lean ====
section
/-! DEFINITION. The named operations the meanings share: the ROM memory, the tile offset, the
response ports, and raising an error, which is all the block does for an exception. -/

namespace Sys2Proof.Machine

/-! ### The ROM memory (20_memory.md R50) -/

/-- The byte at an address; `none` when the address does not exist. -/
def Memory.read : Memory → Nat → Option Byte
  | [], _ => none
  | (k, b) :: rest, a => if k = a then some b else Memory.read rest a

/-- The address exists. -/
def Memory.has (m : Memory) (a : Nat) : Bool := (Memory.read m a).isSome

/-- `ROM[a] <- v` in place: "WRITE_TILE overwrites bytes in place and never grows or shrinks the
buffer" (R24), so an address that does not exist gets no cell. -/
def Memory.overwrite (m : Memory) (a : Nat) (v : Byte) : Memory :=
  m.map fun cell => if cell.1 = a then (cell.1, v) else cell

/-- `MemRead(a, n)`, the bytes `ROM[a..a+n)` (R10); `none` when one of them does not exist. -/
def Memory.readSpan (m : Memory) (a : Nat) : Nat → Option (List Byte)
  | 0 => some []
  | n + 1 =>
    match Memory.read m a, Memory.readSpan m (a + 1) n with
    | some b, some bs => some (b :: bs)
    | _, _ => none

/-- Every address of `[a, a+n)` exists. -/
def Memory.hasSpan (m : Memory) (a n : Nat) : Bool :=
  (List.range n).all fun k => Memory.has m (a + k)

/-- `MemWrite(a, len v, v)`, "sets `ROM[addr+k] <- v[k]`" (R10). -/
def Memory.writeSpan (m : Memory) (a : Nat) : List Byte → Memory
  | [] => m
  | v :: vs => Memory.writeSpan (Memory.overwrite m a v) (a + 1) vs

/-- Cells at successive addresses from `a`. -/
def Memory.ofBytesFrom (a : Nat) : List Byte → Memory
  | [] => []
  | b :: bs => (a, b) :: Memory.ofBytesFrom (a + 1) bs

/-- The ROM memory PARSE installs from its buffer: element i at address i (R52). -/
def Memory.ofBytes (buf : List Byte) : Memory := Memory.ofBytesFrom 0 buf

/-- The host's view of the ROM memory between commands, which "is that memory" (R52, R55): its
bytes in address order. -/
def State.hostView (s : State) : List Byte := s.rom.map Prod.snd

/-! ### Ending a command (30_encoding.md R70, 60_exceptions.md R200 to R203) -/

/-- The STATUS code of an error (R200). -/
def errorCode : ErrorCause → BitVec 8
  | .malformedHeader  => 1
  | .indexOutOfRange  => 2
  | .invalidInputSize => 3
  | .illegalCommand   => 4
  | .noRom            => 5
  | .noHeader         => 6

/-- The STATUS port: "status code; 0 = OK" (R70). -/
def Response.status : Response → BitVec 8
  | .ok _  => 0
  | .err e => errorCode e

/-- The RESULT port, when the response carries one. -/
def Response.resultPort : Response → Option Nat
  | .ok (.result v)  => some v
  | .ok .none        => none
  | .ok (.dataOut _) => none
  | .err _           => none

/-- The DATA_OUT port, when the response carries one. -/
def Response.dataOutPort : Response → Option (List Nat)
  | .ok (.dataOut vs) => some vs
  | .ok .none         => none
  | .ok (.result _)   => none
  | .err _            => none

/-- Put a response on the ports; nothing else changes. -/
def State.withResponse (s : State) (r : Response) : State := { s with response := some r }

/-- Exchange the ROM memory's contents; nothing else changes. -/
def State.withRom (s : State) (m : Memory) : State := { s with rom := m }

/-- Exchange the commands still to be presented; nothing else changes. -/
def State.withProgram (s : State) (cs : List Command) : State := { s with program := cs }

/-- The ports carry no response. -/
def State.withoutResponse (s : State) : State := { s with response := none }

/-- "`return` ... end the command with status OK and that output" (R10). -/
def finish (out : Output) (s : State) : Host.Outcome State Fault Refusal :=
  .next (s.withResponse (.ok out))

/-- `raise E`, the block's whole exception entry: "ends the command with status E. No state is
written, and no RESULT or DATA_OUT is produced" (R10, R202). There is no trap: no vector, no
saved program counter, no mode change (R206), and so no return from one (R207). The machine goes
on with the next command (R216). -/
def raise (e : ErrorCause) (s : State) : Host.Outcome State Fault Refusal :=
  .next (s.withResponse (.err e))

/-! ### The tile offset calculator (42_tile_access.md R160, R162, R169) -/

/-- `TileOff(n) = R(DATA_OFFSET) + n * 16`, exact on natural numbers (R160). -/
def tileOff (s : State) (n : Nat) : Nat := s.dataOffset + n * 16

/-- `InRange(off) = (off + 16 ≤ R(ROM_LENGTH))` (R162). -/
def inRange (s : State) (off : Nat) : Bool := decide (off + 16 ≤ s.romLength)

/-- The number of whole tiles in the ROM, R169's helper: `(ROM_LENGTH - DATA_OFFSET) div 16`, and
0 when ROM_LENGTH is below DATA_OFFSET (natural subtraction gives that). -/
def tileCount (s : State) : Nat := (s.romLength - s.dataOffset) / 16

end Sys2Proof.Machine
end

