-- ==== Sys2Proof/Machine/Codec.lean ====
section
/-! DEFINITION. The Tile Codec: DECODE and ENCODE (40_tile_codec.md). -/

namespace Sys2Proof.Machine

/-- Pixel (x, y) of an encoded tile: `b0 | (b1 << 1)`, with b0 the bit 7-x of byte y and b1 the
bit 7-x of byte 8+y (R100, R101). -/
def decodePixel (enc : List Byte) (y x : Nat) : Nat :=
  bit (byteAt enc y) (7 - x) ||| (bit (byteAt enc (8 + y)) (7 - x) <<< 1)

/-- R101's loops: 16 bytes to 64 pixels in row-major order. -/
def decodeTile (enc : List Byte) : List Nat :=
  (List.range 64).map fun i => decodePixel enc (i / 8) (i % 8)

/-- One plane byte: `p := p | (v << (7 - x))` for x in 0..7 from p = 0, with v the plane's bit of
pixel x (R102; 8-bit accumulators). Column 7 is no special case (R106). -/
def planeByte (planeBit : Nat → Nat) : Byte :=
  (List.range 8).foldl (fun p x => p ||| BitVec.ofNat 8 (planeBit x <<< (7 - x))) 0

/-- Byte y of bit-plane 0: bit 0 of each pixel, `v & 1` (R102). -/
def plane0Byte (flat : List Nat) (y : Nat) : Byte :=
  planeByte fun x => pixelAt flat y x &&& 1

/-- Byte y of bit-plane 1: bit 1 of each pixel, `(v & 2) >> 1` (R102). -/
def plane1Byte (flat : List Nat) (y : Nat) : Byte :=
  planeByte fun x => (pixelAt flat y x &&& 2) >>> 1

/-- R102's loops: 64 pixels to 16 bytes, "plane0[0..7], plane1[0..7]" (R53). -/
def encodeTile (flat : List Nat) : List Byte :=
  (List.range 8).map (plane0Byte flat) ++ (List.range 8).map (plane1Byte flat)

/-- DECODE (R101). Needs no ROM and writes no state. -/
def execDecode (enc : List Byte) (s : State) : Host.Outcome State Fault Refusal :=
  if enc.length ≠ 16 then raise .invalidInputSize s
  else finish (.dataOut (decodeTile enc)) s

/-- ENCODE (R102). Needs no ROM and writes no state; any pixel value is legal. -/
def execEncode (flat : List Nat) (s : State) : Host.Outcome State Fault Refusal :=
  if flat.length ≠ 64 then raise .invalidInputSize s
  else finish (.dataOut ((encodeTile flat).map BitVec.toNat)) s

end Sys2Proof.Machine
end

