-- ==== Sys2Proof/Machine/Container.lean ====
section
/-! DEFINITION. The ROM Container Model: PARSE (41_rom_container.md). -/

namespace Sys2Proof.Machine

/-- HasMagic: the buffer has at least four bytes and they are 4E 45 53 1A, exact byte equality
(R131). -/
def hasMagic (buf : List Byte) : Bool :=
  match buf with
  | b0 :: b1 :: b2 :: b3 :: _ => b0 == 0x4E && b1 == 0x45 && b2 == 0x53 && b3 == 0x1A
  | _ => false

/-- The part of PARSE's writes common to both branches: the buffer becomes the ROM memory (R130,
R52). -/
def State.installRom (s : State) (buf : List Byte) : State :=
  { s with rom := Memory.ofBytes buf, romLength := buf.length, romValid := true }

/-- The header branch: the seven fields positionally (R132), MAPPER (R133), DATA_OFFSET 16 (R135). -/
def State.writeHeader (s : State) (buf : List Byte) : State :=
  { s with
    headerPresent := true
    prgRomSize := byteAt buf 4
    chrRomSize := byteAt buf 5
    flags6 := byteAt buf 6
    flags7 := byteAt buf 7
    prgRamSize := byteAt buf 8
    flags9 := byteAt buf 9
    flags10 := byteAt buf 10
    mapper := mapperOf (byteAt buf 6) (byteAt buf 7)
    dataOffset := 16 }

/-- The headerless branch: every header register 0, "unobservable: NoHeader", DATA_OFFSET 0 (R130;
log 7). -/
def State.clearHeader (s : State) : State :=
  { s with
    headerPresent := false
    prgRomSize := 0
    chrRomSize := 0
    flags6 := 0
    flags7 := 0
    prgRamSize := 0
    flags9 := 0
    flags10 := 0
    mapper := 0
    dataOffset := 0 }

/-- PARSE (R130): MalformedHeader before anything is written (R136), else the whole ROM is
replaced (R137). -/
def execParse (buf : List Byte) (s : State) : Host.Outcome State Fault Refusal :=
  if hasMagic buf then
    if buf.length < 16 then raise .malformedHeader s
    else finish .none ((s.installRom buf).writeHeader buf)
  else finish .none ((s.installRom buf).clearHeader)

end Sys2Proof.Machine
end

