-- ==== Sys2Proof/Machine/TileAccess.lean ====
section
/-! DEFINITION. The Tile Access Layer: TILE_OFFSET, READ_TILE, WRITE_TILE, READ_REG, READ_ROM
(42_tile_access.md). -/

namespace Sys2Proof.Machine

/-- TILE_OFFSET (R161): pure arithmetic, "no range check". -/
def execTileOffset (n : Nat) (s : State) : Host.Outcome State Fault Refusal :=
  if !s.romValid then raise .noRom s
  else finish (.result (tileOff s n)) s

/-- READ_TILE (R163): the range is checked before any read. -/
def execReadTile (n : Nat) (s : State) : Host.Outcome State Fault Refusal :=
  if !s.romValid then raise .noRom s
  else if !inRange s (tileOff s n) then raise .indexOutOfRange s
  else
    match Memory.readSpan s.rom (tileOff s n) 16 with
    | some enc => finish (.dataOut (decodeTile enc)) s
    | none => .fault .romAddressAbsent

/-- WRITE_TILE (R164): NoRom, then InvalidInputSize, then IndexOutOfRange (R204), then sixteen
bytes in place. -/
def execWriteTile (n : Nat) (flat : List Nat) (s : State) : Host.Outcome State Fault Refusal :=
  if !s.romValid then raise .noRom s
  else if flat.length ≠ 64 then raise .invalidInputSize s
  else if !inRange s (tileOff s n) then raise .indexOutOfRange s
  else if Memory.hasSpan s.rom (tileOff s n) 16 then
    finish .none (s.withRom (Memory.writeSpan s.rom (tileOff s n) (encodeTile flat)))
  else .fault .romAddressAbsent

/-- READ_REG (R167): IllegalCommand, then NoRom, then NoHeader. -/
def execReadReg (r : Nat) (s : State) : Host.Outcome State Fault Refusal :=
  match regOfNumber r with
  | none => raise .illegalCommand s
  | some g =>
    if regNeedsRom g && !s.romValid then raise .noRom s
    else if regNeedsHeader g && !s.headerPresent then raise .noHeader s
    else finish (.result (regValue g s)) s

/-- READ_ROM (R168). -/
def execReadRom (a : Nat) (s : State) : Host.Outcome State Fault Refusal :=
  if !s.romValid then raise .noRom s
  else if s.romLength ≤ a then raise .indexOutOfRange s
  else
    match Memory.read s.rom a with
    | some b => finish (.result b.toNat) s
    | none => .fault .romAddressAbsent

end Sys2Proof.Machine
end

