-- ==== Sys2Proof/Machine/Dispatch.lean ====
section
/-! DEFINITION. One arm for each command (30_encoding.md R72). -/

namespace Sys2Proof.Machine

def exec (i : Instr) (s : State) : Host.Outcome State Fault Refusal :=
  match i with
  | .parse buf => Sys2Proof.Machine.execParse buf s
  | .decode enc => Sys2Proof.Machine.execDecode enc s
  | .encode flat => Sys2Proof.Machine.execEncode flat s
  | .tileOffset n => Sys2Proof.Machine.execTileOffset n s
  | .readTile n => Sys2Proof.Machine.execReadTile n s
  | .writeTile n flat => Sys2Proof.Machine.execWriteTile n flat s
  | .readReg r => Sys2Proof.Machine.execReadReg r s
  | .readRom a => Sys2Proof.Machine.execReadRom a s

end Sys2Proof.Machine
end

