-- ==== Sys2Proof/Machine/Issue.lean ====
section
/-! DEFINITION. The command port: what one presented command does (30_encoding.md R70). -/

namespace Sys2Proof.Machine

/-- One presented command: a reserved OPC ends with IllegalCommand (R76), an ill-formed or
unpresentable command is refused (R7, R74, R137), any other runs. The spec gives no order of
refusals: a command that breaks two limits is refused for what the decoder sees first, so a PARSE
with an element above 255 that is also longer than ROM_CAPACITY is refused for the element (DESIGN
CHOICE, log 11). -/
def issue (c : Command) (s : State) : Host.Outcome State Fault Refusal :=
  match decode c with
  | .reserved => raise .illegalCommand s
  | .illFormed why => .refused (.illFormed why)
  | .instr i =>
    match i.illFormed? s.params with
    | some why => .refused (.illFormed why)
    | none => exec i s

/-- The host presents no command: the block "is idle and holds its state indefinitely" (R215), and
no response stands on the ports (log 2). -/
def idle (s : State) : Host.Outcome State Fault Refusal := .next s.withoutResponse

/-- The host hands the block a finite list of commands (R22), after those it has not presented yet. -/
def State.load (s : State) (cs : List Command) : State := s.withProgram (s.program ++ cs)

/-- The host presents `c` before the commands already waiting. -/
def State.presentFirst (s : State) (c : Command) : State := s.withProgram (c :: s.program)

end Sys2Proof.Machine
end

