-- ==== Sys2Proof/Machine/Step.lean ====
section
/-! DEFINITION. One step: the next command of the host's list, "its k-th command is step k of the
run" (10_state.md R22), each command one atomic step (20_memory.md R55, R59). -/

namespace Sys2Proof.Machine

/-- The block takes the next command (R235: "one command at a time"); with none waiting it idles. -/
def step (s : State) : Host.Outcome State Fault Refusal :=
  match s.program with
  | [] => idle s
  | c :: rest => issue c (s.withProgram rest)

/-- The host presents the table word's command, operand ports zero, as the next one (log 18). -/
def State.withFetchWord (s : State) (_nbits w : Nat) : State :=
  s.presentFirst (commandOfTableWord w)

end Sys2Proof.Machine
end

