-- ==== Sys2Proof/Machine/Assembler.lean ====
section
/-! DEFINITION. The assembler syntax of a command program (30_encoding.md R78, R79): text to the
commands the host presents. Lexical points R78 leaves open are log 15. -/

namespace Sys2Proof.Machine

/-- The upper-case mnemonic of each opcode: "Every mnemonic of rule R78 is exactly one opcode" (R79). -/
def mnemonicTable : List (String × Opcode) :=
  [ ("PARSE", .parse)
  , ("DECODE", .decode)
  , ("ENCODE", .encode)
  , ("TILE_OFFSET", .tileOffset)
  , ("READ_TILE", .readTile)
  , ("WRITE_TILE", .writeTile)
  , ("READ_REG", .readReg)
  , ("READ_ROM", .readRom) ]

/-- The register names of R35, which a `<reg>` operand may use for the number. -/
def regNameTable : List (String × Reg) :=
  [ ("ROM_VALID", .romValid)
  , ("ROM_LENGTH", .romLength)
  , ("DATA_OFFSET", .dataOffset)
  , ("HEADER_PRESENT", .headerPresent)
  , ("PRG_ROM_SIZE", .prgRomSize)
  , ("CHR_ROM_SIZE", .chrRomSize)
  , ("FLAGS6", .flags6)
  , ("FLAGS7", .flags7)
  , ("PRG_RAM_SIZE", .prgRamSize)
  , ("FLAGS9", .flags9)
  , ("FLAGS10", .flags10)
  , ("MAPPER", .mapper) ]

/-- The entry of a name table whose name is spelled `w`. -/
def lookupName {α : Type} (w : List Char) : List (String × α) → Option α
  | [] => none
  | (name, v) :: rest => if name.toList = w then some v else lookupName w rest

/-! ### Tokens -/

/-- What a line of program text consists of. -/
inductive Token where
  | word (w : List Char)
  | num (v : Nat)
  | lbracket | rbracket | lparen | rparen | comma | concat
deriving DecidableEq, Repr

/-- The value of a decimal digit. -/
def decimalDigit (c : Char) : Option Nat :=
  if '0'.toNat ≤ c.toNat ∧ c.toNat ≤ '9'.toNat then some (c.toNat - '0'.toNat) else none

/-- The value of a hexadecimal digit, of either case. -/
def hexDigit (c : Char) : Option Nat :=
  if 'a'.toNat ≤ c.toNat ∧ c.toNat ≤ 'f'.toNat then some (c.toNat - 'a'.toNat + 10)
  else if 'A'.toNat ≤ c.toNat ∧ c.toNat ≤ 'F'.toNat then some (c.toNat - 'A'.toNat + 10)
  else decimalDigit c

/-- Digits most significant first, onto the value read so far. -/
def digitsValue (base : Nat) (digit : Char → Option Nat) : Nat → List Char → Option Nat
  | acc, [] => some acc
  | acc, c :: cs =>
    match digit c with
    | some d => digitsValue base digit (acc * base + d) cs
    | none => none

/-- A number: decimal, or hexadecimal after `0x` (R78). -/
def numberValue (w : List Char) : Option Nat :=
  match w with
  | [] => none
  | ['0', 'x'] => none
  | '0' :: 'x' :: hex => digitsValue 16 hexDigit 0 hex
  | dec => digitsValue 10 decimalDigit 0 dec

/-- The token of a maximal run of letters, digits and underscores, given last character first:
a number when it starts with a digit, else a word. -/
def wordToken (revChars : List Char) : Option Token :=
  match revChars.reverse with
  | [] => none
  | c :: cs =>
    if (decimalDigit c).isSome then (numberValue (c :: cs)).map Token.num
    else some (.word (c :: cs))

/-- The tokens read so far (last first) with the pending word closed. -/
def closeWord (pending : List Char) (revTokens : List Token) : Option (List Token) :=
  match pending with
  | [] => some revTokens
  | _ :: _ => (wordToken pending).map (· :: revTokens)

/-- The characters of words and numbers. -/
def wordChar (c : Char) : Bool :=
  c == '_' || (decimalDigit c).isSome || ('A' ≤ c && c ≤ 'Z') || ('a' ≤ c && c ≤ 'z')

/-- The token of a punctuation character. -/
def punctuation (c : Char) : Option Token :=
  match c with
  | '[' => some .lbracket
  | ']' => some .rbracket
  | '(' => some .lparen
  | ')' => some .rparen
  | ',' => some .comma
  | _   => none

/-- The tokens of one line; "a `;` starts a comment that runs to the end of the line" (R78). -/
def lexLine : List Char → List Char → List Token → Option (List Token)
  | [], pending, toks => (closeWord pending toks).map List.reverse
  | '+' :: '+' :: cs, pending, toks =>
    match closeWord pending toks with
    | some toks => lexLine cs [] (.concat :: toks)
    | none => none
  | c :: cs, pending, toks =>
    if c = ';' then (closeWord pending toks).map List.reverse
    else if wordChar c then lexLine cs (c :: pending) toks
    else
      match closeWord pending toks with
      | none => none
      | some toks =>
        match punctuation c with
        | some t => lexLine cs [] (t :: toks)
        | none => if c = ' ' || c = '\t' || c = '\r' then lexLine cs [] toks else none

/-! ### Sequence expressions (00_scope.md R9) -/

/-- The elements of a list literal after its `[`, and the tokens after its `]`. -/
def parseElements : List Token → Option (List Nat × List Token)
  | .num v :: .rbracket :: ts => some ([v], ts)
  | .num v :: .comma :: ts =>
    match parseElements ts with
    | some (vs, ts) => some (v :: vs, ts)
    | none => none
  | _ => none

/-- One term of a sequence expression: a list literal or `fill(v, k)`, k copies of v. -/
def parseTerm : List Token → Option (List Nat × List Token)
  | .lbracket :: .rbracket :: ts => some ([], ts)
  | .lbracket :: ts => parseElements ts
  | .word w :: .lparen :: .num v :: .comma :: .num k :: .rparen :: ts =>
    if w = "fill".toList then some (List.replicate k v, ts) else none
  | _ => none

/-- Terms joined by `++`; `fuel` bounds their number. -/
def parseTerms : Nat → List Token → Option (List Nat)
  | 0, _ => none
  | fuel + 1, ts =>
    match parseTerm ts with
    | some (vs, []) => some vs
    | some (vs, .concat :: rest) => (parseTerms fuel rest).map (vs ++ ·)
    | _ => none

/-- A whole sequence expression: every token of it is used. -/
def parseSequence (ts : List Token) : Option (List Nat) := parseTerms ts.length ts

/-! ### Lines and programs -/

/-- A command line's operands as the command they present; an operand port the form does not name
is idle, as in the encoder (R78). -/
def assembleOperands (op : Opcode) (ts : List Token) : Option Command :=
  match op, ts with
  | .parse, ts  => (parseSequence ts).map fun s => ⟨opcodeByte .parse, 0, s⟩
  | .decode, ts => (parseSequence ts).map fun s => ⟨opcodeByte .decode, 0, s⟩
  | .encode, ts => (parseSequence ts).map fun s => ⟨opcodeByte .encode, 0, s⟩
  | .tileOffset, [.num n] => some ⟨opcodeByte .tileOffset, n, []⟩
  | .readTile, [.num n] => some ⟨opcodeByte .readTile, n, []⟩
  | .writeTile, .num n :: .comma :: ts =>
    (parseSequence ts).map fun s => ⟨opcodeByte .writeTile, n, s⟩
  | .readReg, [.num r] => some ⟨opcodeByte .readReg, r, []⟩
  | .readReg, [.word w] =>
    (lookupName w regNameTable).map fun g => ⟨opcodeByte .readReg, regNumber g, []⟩
  | .readRom, [.num a] => some ⟨opcodeByte .readRom, a, []⟩
  | _, _ => none

/-- One line of a program: no command (an empty or comment line) or one command; `none` when the
line has none of R78's forms. -/
def assembleLine (line : List Char) : Option (List Command) :=
  match lexLine line [] [] with
  | none => none
  | some [] => some []
  | some (.word w :: ts) =>
    match lookupName w mnemonicTable with
    | some op => (assembleOperands op ts).map fun c => [c]
    | none => none
  | some (_ :: _) => none

/-- The lines of a text, split at line feeds; `revLine` is the line being read, last character
first. -/
def splitLines : List Char → List Char → List (List Char)
  | [], revLine => [revLine.reverse]
  | c :: cs, revLine =>
    if c = '\n' then revLine.reverse :: splitLines cs [] else splitLines cs (c :: revLine)

/-- The commands of lines in order. -/
def assembleLines : List (List Char) → Option (List Command)
  | [] => some []
  | line :: lines =>
    match assembleLine line, assembleLines lines with
    | some c, some cs => some (c ++ cs)
    | _, _ => none

/-- "A program is a text with one command per line" (R78). -/
def assemble (text : String) : Option (List Command) := assembleLines (splitLines text.toList [])

end Sys2Proof.Machine
end

