-- ==== Sys2Proof/Safety.lean ====
section
/-! DEFINITION. What a legal state is, and the words claims use about it. -/

namespace Sys2Proof

/-- A command the block can be given at these parameters: its operands are well-formed, or its
opcode is reserved (which is a command too, one that ends with IllegalCommand). -/
def Command.presentable (p : Params) (c : Command) : Bool :=
  match decode c with
  | .reserved => true
  | .illFormed _ => false
  | .instr i => i.wellFormed p

/-- The command writes nothing but the ports: every one but PARSE and WRITE_TILE (R51, R101 to
R168 "State written"). -/
def Instr.readsOnly : Instr → Bool
  | .parse _ | .writeTile _ _ => false
  | .decode _ | .encode _ | .tileOffset _ | .readTile _ | .readReg _ | .readRom _ => true

end Sys2Proof

namespace Sys2Proof.Machine

/-- The seven field registers and MAPPER are 0 (R36's second clause). -/
def State.HeaderZero (s : State) : Prop :=
  s.prgRomSize = 0 ∧ s.chrRomSize = 0 ∧ s.flags6 = 0 ∧ s.flags7 = 0 ∧
  s.prgRamSize = 0 ∧ s.flags9 = 0 ∧ s.flags10 = 0 ∧ s.mapper = 0

/-- The ROM memory starts with the magic, and the seven field registers equal its bytes 4..10.
R36 says it of the bytes "as they were when PARSE ran"; since WRITE_TILE cannot reach bytes 0..15
while HEADER_PRESENT = 1 (R37), it stays so. -/
def State.HeaderMatchesRom (s : State) : Prop :=
  Memory.read s.rom 0 = some 0x4E ∧ Memory.read s.rom 1 = some 0x45 ∧
  Memory.read s.rom 2 = some 0x53 ∧ Memory.read s.rom 3 = some 0x1A ∧
  Memory.read s.rom 4 = some s.prgRomSize ∧ Memory.read s.rom 5 = some s.chrRomSize ∧
  Memory.read s.rom 6 = some s.flags6 ∧ Memory.read s.rom 7 = some s.flags7 ∧
  Memory.read s.rom 8 = some s.prgRamSize ∧ Memory.read s.rom 9 = some s.flags9 ∧
  Memory.read s.rom 10 = some s.flags10

/-- The invariant of the block: R20's `ROM_LENGTH = len(ROM)` over canonical memory, R24's capacity
bound, R34's MAPPER formula, and the header invariant R36. -/
structure State.Inv (s : State) : Prop where
  /-- The ROM memory lists exactly the addresses 0..ROM_LENGTH-1, in order (R20, R50). -/
  romAddresses : s.rom.map Prod.fst = List.range s.romLength
  /-- ROM_LENGTH is at most ROM_CAPACITY (R24). -/
  withinCapacity : fitsCapacity s.params.romCapacity s.romLength = true
  /-- The parameters are legal (R7). -/
  paramsLegal : s.params.wf = true
  /-- MAPPER "always equals" its formula (R34). -/
  mapperFormula : s.mapper = mapperOf s.flags6 s.flags7
  /-- R36, first clause. -/
  headerPresent : s.headerPresent = true →
    s.romValid = true ∧ s.dataOffset = 16 ∧ 16 ≤ s.romLength ∧ s.HeaderMatchesRom
  /-- R36, second clause; it covers DATA_OFFSET and the header registers at reset too. -/
  headerAbsent : s.headerPresent = false → s.dataOffset = 0 ∧ s.HeaderZero
  /-- R36: "When ROM_VALID = 0, every register holds its reset value" (the header registers by
  the clause before). -/
  noRom : s.romValid = false → s.rom = [] ∧ s.romLength = 0 ∧ s.headerPresent = false

/-- The twelve registers of R35 hold the same values in both states. -/
def State.SameRegisters (s t : State) : Prop :=
  t.romValid = s.romValid ∧ t.romLength = s.romLength ∧ t.dataOffset = s.dataOffset ∧
  t.headerPresent = s.headerPresent ∧ t.prgRomSize = s.prgRomSize ∧
  t.chrRomSize = s.chrRomSize ∧ t.flags6 = s.flags6 ∧ t.flags7 = s.flags7 ∧
  t.prgRamSize = s.prgRamSize ∧ t.flags9 = s.flags9 ∧ t.flags10 = s.flags10 ∧
  t.mapper = s.mapper

/-- The model's own fields other than the response are the same: the commands waiting and the
parameters. -/
def State.SameHost (s t : State) : Prop := t.program = s.program ∧ t.params = s.params

/-- Every byte of memory reads the same. -/
def State.SameMemory (s t : State) : Prop := ∀ a, Memory.read t.rom a = Memory.read s.rom a

/-- What a host can tell apart: registers that READ_REG refuses to show (R35, R230) may differ. -/
def State.Alike (s t : State) : Prop :=
  s.program = t.program ∧ s.params = t.params ∧ s.romValid = t.romValid ∧
  (s.romValid = true →
    s.rom = t.rom ∧ s.romLength = t.romLength ∧ s.dataOffset = t.dataOffset ∧
    s.headerPresent = t.headerPresent ∧
    (s.headerPresent = true →
      s.prgRomSize = t.prgRomSize ∧ s.chrRomSize = t.chrRomSize ∧ s.flags6 = t.flags6 ∧
      s.flags7 = t.flags7 ∧ s.prgRamSize = t.prgRamSize ∧ s.flags9 = t.flags9 ∧
      s.flags10 = t.flags10 ∧ s.mapper = t.mapper))

/-- Two outcomes a host cannot tell apart: the same response on the ports and states that stay
alike, or the same stop. -/
def OutcomesAlike (x y : Host.Outcome State Fault Refusal) : Prop :=
  match x, y with
  | .next s, .next t => s.Alike t ∧ s.response = t.response
  | .fault f, .fault g => f = g
  | .refused f, .refused g => f = g
  | _, _ => False

/-- The errors each command can raise (60_exceptions.md R201, row by row). -/
def mayRaise : Opcode → ErrorCause → Bool
  | .parse, e      => e == .malformedHeader
  | .decode, e     => e == .invalidInputSize
  | .encode, e     => e == .invalidInputSize
  | .tileOffset, e => e == .noRom
  | .readTile, e   => e == .noRom || e == .indexOutOfRange
  | .writeTile, e  => e == .noRom || e == .invalidInputSize || e == .indexOutOfRange
  | .readReg, e    => e == .illegalCommand || e == .noRom || e == .noHeader
  | .readRom, e    => e == .noRom || e == .indexOutOfRange

/-! ### Program text as R78 and 00_scope.md R9 write it -/

/-- The number as R78 spells numbers: decimal, or hexadecimal after `0x`. One text may mix both. -/
def SpellsNumbers (spell : Nat → String) : Prop :=
  ∀ n, spell n = Nat.repr n ∨ spell n = "0x" ++ String.ofList (Nat.toDigits 16 n)

/-- A term of a sequence expression: a list literal `[e0, e1, ...]`, or `fill(v, k)` (R9). -/
inductive SeqTerm where
  | literal (vs : List Nat)
  | fill (v k : Nat)
deriving DecidableEq, Repr

/-- The sequence a term stands for; `fill(v, k)` is "the sequence of k copies of v" (R9). -/
def SeqTerm.value : SeqTerm → List Nat
  | .literal vs => vs
  | .fill v k   => List.replicate k v

/-- A term as text. -/
def SeqTerm.text (spell : Nat → String) : SeqTerm → String
  | .literal vs => "[" ++ ", ".intercalate (vs.map spell) ++ "]"
  | .fill v k   => "fill(" ++ spell v ++ ", " ++ spell k ++ ")"

/-- The sequence of terms joined by `++`, concatenation (R9). -/
def seqValue (terms : List SeqTerm) : List Nat := terms.flatMap SeqTerm.value

/-- Terms joined by `++`, as text. -/
def seqText (spell : Nat → String) (terms : List SeqTerm) : String :=
  " ++ ".intercalate (terms.map (SeqTerm.text spell))

/-! ### R107's closed forms, in natural arithmetic -/

/-- `((enc[y] >> (7-x)) & 1) + 2 * ((enc[8+y] >> (7-x)) & 1)`, from the two bytes. -/
def closedPixel (plane0 plane1 : Byte) (x : Nat) : Nat :=
  plane0.toNat / 2 ^ (7 - x) % 2 + 2 * (plane1.toNat / 2 ^ (7 - x) % 2)

/-- `enc[y] = Σ (flat[y*8+x] & 1) * 2^(7-x)` over the eight columns. -/
def closedPlane0 (flat : List Nat) (y : Nat) : Nat :=
  ∑ x ∈ Finset.range 8, flat.getD (y * 8 + x) 0 % 2 * 2 ^ (7 - x)

/-- `enc[8+y] = Σ ((flat[y*8+x] >> 1) & 1) * 2^(7-x)` over the eight columns. -/
def closedPlane1 (flat : List Nat) (y : Nat) : Nat :=
  ∑ x ∈ Finset.range 8, flat.getD (y * 8 + x) 0 / 2 % 2 * 2 ^ (7 - x)

end Sys2Proof.Machine
end

