-- ==== Sys2Proof/Certificates/Slice0/Obligations.lean ====
section
/-! DEFINITION. The statements about the model, for the provers. -/

open Sys2Proof Sys2Proof.Machine

/-! ### Reset and the invariant -/

/-- R230: the reset state, at every value of the open parameters, and that READ_REG shows none of
it but ROM_VALID. The zeros of the other registers are R35's reset values, which no command shows
(log 7). (That `program` and `response` are empty is the model's own, log 1 and 2, and is not
stated here.) -/
def Obligations.ResetHoldsTheSpecsValues : Prop :=
  State.reset = State.resetWith Params.reference ∧
  ∀ p : Params,
    (State.resetWith p).romValid = false ∧ (State.resetWith p).rom = [] ∧
    (State.resetWith p).romLength = 0 ∧ (State.resetWith p).dataOffset = 0 ∧
    (State.resetWith p).headerPresent = false ∧ (State.resetWith p).HeaderZero ∧
    exec (.readReg 0) (State.resetWith p) =
      .next ((State.resetWith p).withResponse (.ok (.result 0))) ∧
    ∀ r, 1 ≤ r → r ≤ 0xB →
      exec (.readReg r) (State.resetWith p) = .next ((State.resetWith p).withResponse (.err .noRom))

/-- The invariant of R20, R24, R34 and R36 holds at reset. -/
def Obligations.InvariantHoldsAtReset : Prop :=
  ∀ p : Params, p.wf = true → (State.resetWith p).Inv

/-- R36 with R20, R24, R34 and R37: every step that answers a next state keeps the invariant, from
every state that has it. -/
def Obligations.EveryStepKeepsTheInvariant : Prop :=
  ∀ s t : State, s.Inv → step s = .next t → t.Inv

/-- The ROM memory stays in canonical form under every step, from every state where it is (log 6). -/
def Obligations.EveryStepKeepsMemoryCanonical : Prop :=
  ∀ s t : State, Memory.wf s.rom = true → step s = .next t → Memory.wf t.rom = true

/-! ### The command port -/

/-- A step presents the first waiting command, and runs what it decodes to when its operands can be
presented (R22, R70). That the commands wait in a list of the state is the model's choice (log 1). -/
def Obligations.StepRunsTheDecodedCommand : Prop :=
  ∀ (s : State) (c : Command) (rest : List Command) (i : Instr),
    s.program = c :: rest → decode c = .instr i → i.wellFormed s.params = true →
    step s = exec i (s.withProgram rest)

/-- With no command waiting the block holds all its state (R215); that the response ports empty is
the model's own choice (log 2). -/
def Obligations.StepWithoutCommandHoldsTheState : Prop :=
  ∀ s : State, s.program = [] →
    ∃ t, step s = .next t ∧ s.SameRegisters t ∧ t.rom = s.rom ∧ t.program = [] ∧
      t.params = s.params ∧ t.response = none

/-- Each step takes one command and never changes the parameters. Both clauses are the model's own
choices: the waiting list whose first command a step takes (log 1; R22 says only that a program is a
finite list of commands and its k-th command step k), and parameters held in the state and never
changed (log 3; R7 says only that a model takes them as arguments). -/
def Obligations.StepTakesOneCommand : Prop :=
  ∀ s t : State, step s = .next t → t.program = s.program.tail ∧ t.params = s.params

/-- R72's map on a few CMD bytes. -/
def Obligations.CommandBytesDecodeAsTheTableSays : Prop :=
  decode ⟨0b00000001, 0, [0x4E, 0xFF]⟩ = .instr (.parse [0x4E, 0xFF]) ∧
  decode ⟨0b00000010, 0, [0x80]⟩ = .instr (.decode [0x80]) ∧
  decode ⟨0b00000011, 0, [300]⟩ = .instr (.encode [300]) ∧
  decode ⟨0b00000100, 4294967296, []⟩ = .instr (.tileOffset 4294967296) ∧
  decode ⟨0b00000110, 7, [3]⟩ = .instr (.writeTile 7 [3]) ∧
  decode ⟨0b00001000, 23, []⟩ = .instr (.readRom 23) ∧
  decode ⟨0b00001001, 0, []⟩ = .reserved

/-- R76: the reserved OPC values are 0x00 and 0x09 to 0xFF and no others; a command with one ends
with IllegalCommand, changes no state and produces no output, whatever its operands. (Only the
command's place in the waiting list is used up, log 1.) -/
def Obligations.ReservedOpcodesEndWithIllegalCommand : Prop :=
  (∀ c : Command, decode c = .reserved ↔ c.cmd.toNat = 0 ∨ (9 ≤ c.cmd.toNat ∧ c.cmd.toNat ≤ 0xFF)) ∧
  ∀ (s : State) (c : Command) (rest : List Command), s.program = c :: rest →
    (c.cmd.toNat = 0 ∨ 9 ≤ c.cmd.toNat) →
    step s = .next ((s.withProgram rest).withResponse (.err .illegalCommand))

/-- R75: changing ARG for PARSE, DECODE and ENCODE, or DATA_IN for TILE_OFFSET, READ_TILE, READ_REG
and READ_ROM, changes neither the state nor the response of the step. -/
def Obligations.UnusedOperandPortsAreIgnored : Prop :=
  ∀ (s : State) (b : Byte) (arg arg' : Nat) (data data' : List Nat) (rest : List Command),
    ((b = 0x01 ∨ b = 0x02 ∨ b = 0x03) →
      step (s.withProgram (⟨b, arg, data⟩ :: rest)) =
        step (s.withProgram (⟨b, arg', data⟩ :: rest))) ∧
    ((b = 0x04 ∨ b = 0x05 ∨ b = 0x07 ∨ b = 0x08) →
      step (s.withProgram (⟨b, arg, data⟩ :: rest)) =
        step (s.withProgram (⟨b, arg, data'⟩ :: rest)))

/-- Decoding an encoded instruction gives it back, for every instruction and all its operands. -/
def Obligations.DecodingInvertsEncoding : Prop :=
  ∀ i : Instr, decode (encode i) = .instr i

/-- Encoding a decoded command gives back its CMD byte and every operand port its opcode uses. -/
def Obligations.EncodingInvertsDecoding : Prop :=
  ∀ (c : Command) (i : Instr), decode c = .instr i →
    (encode i).cmd = c.cmd ∧
    (4 ≤ c.cmd.toNat → (encode i).arg = c.arg) ∧
    ((c.cmd.toNat ≤ 3 ∨ c.cmd.toNat = 6) → (encode i).dataIn = c.dataIn)

/-- An element above 255 is refused and not reduced (R74, log 4), and a PARSE longer than
ROM_CAPACITY is refused (R137). R7 and R74 only say that an over-wide ARG or pixel cannot be
presented: that the model refuses it is read from them by inference (log 5). The name a command gets
that breaks two limits is the model's choice (log 11): for PARSE the elements before ROM_CAPACITY,
for WRITE_TILE the ARG before the pixels. -/
def Obligations.UnpresentableCommandsAreRefused : Prop :=
  ∀ (s : State) (c : Command) (rest : List Command), s.program = c :: rest →
    ((c.cmd = 0x01 ∨ c.cmd = 0x02) → (∃ v ∈ c.dataIn, 255 < v) →
      step s = .refused (.illFormed .byteElementTooWide)) ∧
    (∀ cap, s.params.romCapacity = some cap → c.cmd = 0x01 → (∀ v ∈ c.dataIn, v ≤ 255) →
      cap < c.dataIn.length → step s = .refused (.illFormed .romCapacityExceeded)) ∧
    (∀ w, s.params.argWidth = some w → 4 ≤ c.cmd.toNat → c.cmd.toNat ≤ 8 → 2 ^ w ≤ c.arg →
      step s = .refused (.illFormed .argTooWide)) ∧
    (∀ w, s.params.pixelInWidth = some w → c.cmd = 0x03 → (∃ v ∈ c.dataIn, 2 ^ w ≤ v) →
      step s = .refused (.illFormed .pixelElementTooWide)) ∧
    (∀ w, s.params.pixelInWidth = some w → c.cmd = 0x06 → (∃ v ∈ c.dataIn, 2 ^ w ≤ v) →
      fitsWidth s.params.argWidth c.arg = true →
      step s = .refused (.illFormed .pixelElementTooWide))

/-- Every presentable command, reserved ones included, ends with a response, from every state that
keeps the invariant: the block neither stops nor hangs on one. (What can be presented: log 4 and 5.) -/
def Obligations.PresentableCommandsAlwaysEnd : Prop :=
  ∀ (s : State) (c : Command) (rest : List Command), s.Inv → s.program = c :: rest →
    c.presentable s.params = true →
    ∃ t, step s = .next t ∧ t.response.isSome = true

/-- A host program of presentable commands runs from reset to its end, one command a step, at any
legal parameters, and leaves a state that keeps the invariant. That the list is loaded into the state
is the model's choice (log 1), as is what can be presented (log 4 and 5). -/
def Obligations.EveryPresentableProgramRunsToItsEnd : Prop :=
  ∀ (p : Params) (cs : List Command), p.wf = true → (∀ c ∈ cs, c.presentable p = true) →
    ∃ t, Sys2Proof.core.run cs.length ((State.resetWith p).load cs) = .next t ∧
      t.program = [] ∧ t.Inv

/-- R70: a response with STATUS other than 0 carries no RESULT and no DATA_OUT, and none carries
both. -/
def Obligations.ResponsesCarryAtMostOneOutput : Prop :=
  ∀ r : Response,
    (r.status ≠ 0 → r.resultPort = none ∧ r.dataOutPort = none) ∧
    (r.resultPort = none ∨ r.dataOutPort = none)

/-- R200's numbers: what STATUS shows for each error, and that no step shows 7 to 255. -/
def Obligations.StatusCodesAreTheSpecs : Prop :=
  (∀ o, Response.status (.ok o) = 0) ∧
  Response.status (.err .malformedHeader) = 1 ∧ Response.status (.err .indexOutOfRange) = 2 ∧
  Response.status (.err .invalidInputSize) = 3 ∧ Response.status (.err .illegalCommand) = 4 ∧
  Response.status (.err .noRom) = 5 ∧ Response.status (.err .noHeader) = 6 ∧
  ∀ (s t : State) (r : Response), step s = .next t → t.response = some r → r.status.toNat < 7

/-- R52 and R55: what the host sees between commands is the ROM memory, ROM_LENGTH bytes long. -/
def Obligations.HostViewIsTheRomMemory : Prop :=
  ∀ s : State, s.Inv →
    s.hostView.length = s.romLength ∧ ∀ a, s.hostView[a]? = Memory.read s.rom a

/-! ### The Tile Codec -/

/-- R101: DECODE, from any state. -/
def Obligations.DecodeCommandFollowsItsRule : Prop :=
  ∀ (s : State) (enc : List Byte),
    (∀ arg, decode ⟨0x02, arg, enc.map BitVec.toNat⟩ = .instr (.decode enc)) ∧
    (enc.length ≠ 16 →
      exec (.decode enc) s = .next (s.withResponse (.err .invalidInputSize))) ∧
    (enc.length = 16 →
      ∃ flat, exec (.decode enc) s = .next (s.withResponse (.ok (.dataOut flat))) ∧
        flat.length = 64 ∧ (∀ v ∈ flat, v ≤ 3) ∧
        ∀ y < 8, ∀ x < 8, ∃ b0 b1, enc[y]? = some b0 ∧ enc[8 + y]? = some b1 ∧
          flat[y * 8 + x]? = some (closedPixel b0 b1 x))

/-- R102: ENCODE, from any state; no pixel value is an error. -/
def Obligations.EncodeCommandFollowsItsRule : Prop :=
  ∀ (s : State) (flat : List Nat),
    (∀ arg, decode ⟨0x03, arg, flat⟩ = .instr (.encode flat)) ∧
    (flat.length ≠ 64 →
      exec (.encode flat) s = .next (s.withResponse (.err .invalidInputSize))) ∧
    (flat.length = 64 →
      ∃ enc, exec (.encode flat) s = .next (s.withResponse (.ok (.dataOut enc))) ∧
        enc.length = 16 ∧ (∀ v ∈ enc, v ≤ 255) ∧
        ∀ y < 8, enc[y]? = some (closedPlane0 flat y) ∧
          enc[8 + y]? = some (closedPlane1 flat y))

/-- R103: lane `y*8+x` of the flat side depends only on bit 7-x of bytes y and 8+y of the encoded
side, and the reverse. -/
def Obligations.LanesAreIndependent : Prop :=
  (∀ (enc enc' : List Byte) (y x : Nat), enc.length = 16 → enc'.length = 16 → y < 8 → x < 8 →
    bit (byteAt enc y) (7 - x) = bit (byteAt enc' y) (7 - x) →
    bit (byteAt enc (8 + y)) (7 - x) = bit (byteAt enc' (8 + y)) (7 - x) →
    ∀ s : State, ∃ flat flat',
      exec (.decode enc) s = .next (s.withResponse (.ok (.dataOut flat))) ∧
      exec (.decode enc') s = .next (s.withResponse (.ok (.dataOut flat'))) ∧
      flat[y * 8 + x]? = flat'[y * 8 + x]?) ∧
  ∀ (flat flat' : List Nat) (y x : Nat), flat.length = 64 → flat'.length = 64 → y < 8 → x < 8 →
    flat.getD (y * 8 + x) 0 % 4 = flat'.getD (y * 8 + x) 0 % 4 →
    ∀ s : State, ∃ enc enc' : List Byte,
      exec (.encode flat) s = .next (s.withResponse (.ok (.dataOut (enc.map BitVec.toNat)))) ∧
      exec (.encode flat') s = .next (s.withResponse (.ok (.dataOut (enc'.map BitVec.toNat)))) ∧
      bit (byteAt enc y) (7 - x) = bit (byteAt enc' y) (7 - x) ∧
      bit (byteAt enc (8 + y)) (7 - x) = bit (byteAt enc' (8 + y)) (7 - x)

/-- R104: the two round-trip laws, "the primary correctness contract". -/
def Obligations.CodecRoundTrips : Prop :=
  (∀ (s : State) (t : List Nat), t.length = 64 → (∀ v ∈ t, v < 4) →
    ∃ enc : List Byte,
      exec (.encode t) s = .next (s.withResponse (.ok (.dataOut (enc.map BitVec.toNat)))) ∧
      exec (.decode enc) s = .next (s.withResponse (.ok (.dataOut t)))) ∧
  ∀ (s : State) (b : List Byte), b.length = 16 →
    ∃ flat : List Nat,
      exec (.decode b) s = .next (s.withResponse (.ok (.dataOut flat))) ∧
      exec (.encode flat) s = .next (s.withResponse (.ok (.dataOut (b.map BitVec.toNat))))

/-- R105: ENCODE then DECODE leaves each pixel's low two bits, and tiles that agree modulo 4 encode
alike. -/
def Obligations.OutOfRangePixelsKeepTheirLowBits : Prop :=
  (∀ (s : State) (t : List Nat), t.length = 64 →
    ∃ enc : List Byte,
      exec (.encode t) s = .next (s.withResponse (.ok (.dataOut (enc.map BitVec.toNat)))) ∧
      exec (.decode enc) s = .next (s.withResponse (.ok (.dataOut (t.map (· % 4)))))) ∧
  ∀ (s : State) (t u : List Nat), t.length = 64 → u.length = 64 →
    t.map (· % 4) = u.map (· % 4) → exec (.encode t) s = exec (.encode u) s

/-- R100 and R106, one bit position at a time: a tile whose one non-zero pixel is v at (x, y)
encodes to bytes that are zero but for `enc[y]` and `enc[8+y]`, at bit 7-x; column 7 is no special
case. -/
def Obligations.OnePixelSetsItsOwnBitPositions : Prop :=
  ∀ (s : State) (y x v : Nat), y < 8 → x < 8 → v < 4 →
    ∃ enc, exec (.encode ((List.replicate 64 0).set (y * 8 + x) v)) s =
        .next (s.withResponse (.ok (.dataOut enc))) ∧
      enc = ((List.replicate 16 0).set y (v % 2 * 2 ^ (7 - x))).set (8 + y) (v / 2 * 2 ^ (7 - x))

/-! ### PARSE -/

/-- R130 with R131, R132, R133, R135 and R136: PARSE, from any state. The buffer's first four bytes
decide; a short buffer with the magic fails and changes nothing (R136 and R202, the spec's decision
D8, log 8); any other replaces the ROM. -/
def Obligations.ParseCommandFollowsItsRule : Prop :=
  ∀ (s : State) (buf : List Byte),
    (∀ arg, decode ⟨0x01, arg, buf.map BitVec.toNat⟩ = .instr (.parse buf)) ∧
    (buf.take 4 = [0x4E, 0x45, 0x53, 0x1A] → buf.length < 16 →
      exec (.parse buf) s = .next (s.withResponse (.err .malformedHeader))) ∧
    (buf.take 4 = [0x4E, 0x45, 0x53, 0x1A] → 16 ≤ buf.length →
      ∃ t, exec (.parse buf) s = .next t ∧ t.response = some (.ok .none) ∧ s.SameHost t ∧
        (∀ a, Memory.read t.rom a = buf[a]?) ∧ t.hostView = buf ∧
        t.romLength = buf.length ∧ t.romValid = true ∧ t.headerPresent = true ∧
        t.dataOffset = 16 ∧
        buf[4]? = some t.prgRomSize ∧ buf[5]? = some t.chrRomSize ∧
        buf[6]? = some t.flags6 ∧ buf[7]? = some t.flags7 ∧
        buf[8]? = some t.prgRamSize ∧ buf[9]? = some t.flags9 ∧ buf[10]? = some t.flags10 ∧
        t.mapper.toNat = t.flags6.toNat / 16 + 16 * (t.flags7.toNat / 16)) ∧
    (buf.take 4 ≠ [0x4E, 0x45, 0x53, 0x1A] →
      ∃ t, exec (.parse buf) s = .next t ∧ t.response = some (.ok .none) ∧ s.SameHost t ∧
        (∀ a, Memory.read t.rom a = buf[a]?) ∧ t.hostView = buf ∧
        t.romLength = buf.length ∧ t.romValid = true ∧ t.headerPresent = false ∧
        t.dataOffset = 0 ∧ t.HeaderZero)

/-- R137: a successful PARSE keeps nothing of the ROM before it. -/
def Obligations.ParseForgetsThePreviousRom : Prop :=
  ∀ (s t s' : State) (buf : List Byte), s.program = t.program → s.params = t.params →
    exec (.parse buf) s = .next s' → s'.response = some (.ok .none) →
    exec (.parse buf) t = .next s'

/-- R134 and R238: PARSE looks at bytes 0..10 alone, and so not at bytes 11..15: two buffers of one
length that agree on bytes 0..10 leave the same registers and the same response. -/
def Obligations.ParseReadsOnlyBytesZeroToTen : Prop :=
  ∀ (s : State) (buf buf' : List Byte), buf.length = buf'.length →
    (∀ k < 11, buf[k]? = buf'[k]?) →
    ∃ t t', exec (.parse buf) s = .next t ∧ exec (.parse buf') s = .next t' ∧
      t.SameRegisters t' ∧ t'.response = t.response

/-- R29, R30, R32 and R34: the named fields are the bits the tables give, MAPPER is MAPPER_HI over
MAPPER_LO, and FLAGS6 bits 3:0 and FLAGS7 bits 3:0 do not affect it. -/
def Obligations.FlagFieldsAreTheNamedBits : Prop :=
  (∀ f6 : Byte, f6.toNat = (mirroring f6).toNat + 2 * (battery f6).toNat + 4 * (trainer f6).toNat +
    8 * (fourScreen f6).toNat + 16 * (mapperLo f6).toNat) ∧
  (∀ f7 : Byte, (vsSystem f7).toNat = f7.toNat % 2 ∧ (mapperHi f7).toNat = f7.toNat / 16) ∧
  (∀ f9 : Byte, (pal f9).toNat = f9.toNat % 2) ∧
  ∀ f6 f7 : Byte,
    (mapperOf f6 f7).toNat = (mapperLo f6).toNat + 16 * (mapperHi f7).toNat

/-! ### The Tile Access Layer -/

/-- R161: TILE_OFFSET, the exact sum with no range check. -/
def Obligations.TileOffsetCommandFollowsItsRule : Prop :=
  ∀ (s : State) (n : Nat),
    (∀ data, decode ⟨0x04, n, data⟩ = .instr (.tileOffset n)) ∧
    (s.romValid = false → exec (.tileOffset n) s = .next (s.withResponse (.err .noRom))) ∧
    (s.romValid = true →
      exec (.tileOffset n) s = .next (s.withResponse (.ok (.result (s.dataOffset + n * 16)))))

/-- R163: READ_TILE. The pixels come from the sixteen bytes at `TileOff(n)`, and nothing but the
response changes. -/
def Obligations.ReadTileCommandFollowsItsRule : Prop :=
  ∀ (s : State) (n : Nat),
    (∀ data, decode ⟨0x05, n, data⟩ = .instr (.readTile n)) ∧
    (s.romValid = false → exec (.readTile n) s = .next (s.withResponse (.err .noRom))) ∧
    (s.romValid = true → s.romLength < tileOff s n + 16 →
      exec (.readTile n) s = .next (s.withResponse (.err .indexOutOfRange))) ∧
    (s.Inv → s.romValid = true → tileOff s n + 16 ≤ s.romLength →
      ∃ flat, exec (.readTile n) s = .next (s.withResponse (.ok (.dataOut flat))) ∧
        flat.length = 64 ∧ (∀ v ∈ flat, v ≤ 3) ∧
        ∀ y < 8, ∀ x < 8, ∃ b0 b1,
          Memory.read s.rom (tileOff s n + y) = some b0 ∧
          Memory.read s.rom (tileOff s n + 8 + y) = some b1 ∧
          flat[y * 8 + x]? = some (closedPixel b0 b1 x))

/-- R164 and R165: WRITE_TILE. It stores the encoded tile's sixteen bytes at `TileOff(n)`, and every
other byte, every register and the host's fields keep their values. -/
def Obligations.WriteTileCommandFollowsItsRule : Prop :=
  ∀ (s : State) (n : Nat) (flat : List Nat),
    decode ⟨0x06, n, flat⟩ = .instr (.writeTile n flat) ∧
    (s.romValid = false → exec (.writeTile n flat) s = .next (s.withResponse (.err .noRom))) ∧
    (s.romValid = true → flat.length ≠ 64 →
      exec (.writeTile n flat) s = .next (s.withResponse (.err .invalidInputSize))) ∧
    (s.romValid = true → flat.length = 64 → s.romLength < tileOff s n + 16 →
      exec (.writeTile n flat) s = .next (s.withResponse (.err .indexOutOfRange))) ∧
    (s.Inv → s.romValid = true → flat.length = 64 → tileOff s n + 16 ≤ s.romLength →
      ∃ t, exec (.writeTile n flat) s = .next t ∧ t.response = some (.ok .none) ∧
        s.SameRegisters t ∧ s.SameHost t ∧
        (∀ y < 8, ∃ b0 b1,
          Memory.read t.rom (tileOff s n + y) = some b0 ∧ b0.toNat = closedPlane0 flat y ∧
          Memory.read t.rom (tileOff s n + 8 + y) = some b1 ∧ b1.toNat = closedPlane1 flat y) ∧
        ∀ a, a < tileOff s n ∨ tileOff s n + 16 ≤ a →
          Memory.read t.rom a = Memory.read s.rom a)

/-- R166 (a) to (d), with a ROM installed and n in range. -/
def Obligations.TileReadWriteLaws : Prop :=
  ∀ (s : State) (n : Nat), s.Inv → s.romValid = true → tileOff s n + 16 ≤ s.romLength →
    (∀ tile : List Nat, tile.length = 64 →
      ∃ s1, exec (.writeTile n tile) s = .next s1 ∧
        exec (.readTile n) s1 =
          .next (s1.withResponse (.ok (.dataOut (tile.map (· % 4)))))) ∧
    (∀ s1 s2, exec (.readTile n) s = .next s1 →
      Relation.ReflTransGen (fun u v => ∃ i : Instr, i.readsOnly = true ∧ exec i u = .next v) s1 s2 →
      ∃ s3, exec (.readTile n) s2 = .next s3 ∧ s3.response = s1.response) ∧
    (∃ f s1 s2, exec (.readTile n) s = .next s1 ∧ s1.response = some (.ok (.dataOut f)) ∧
      exec (.writeTile n f) s1 = .next s2 ∧ s2.response = some (.ok .none) ∧ s2.rom = s.rom) ∧
    (∀ m tile s1, m ≠ n → exec (.writeTile m tile) s = .next s1 →
      ∃ r, exec (.readTile n) s = .next (s.withResponse r) ∧
        exec (.readTile n) s1 = .next (s1.withResponse r))

/-- R235: writes to different tile indices commute: either order leaves the same state. -/
def Obligations.WritesToDifferentTilesCommute : Prop :=
  ∀ (s : State) (m n : Nat) (t u : List Nat), s.Inv → s.romValid = true → m ≠ n →
    t.length = 64 → u.length = 64 →
    tileOff s m + 16 ≤ s.romLength → tileOff s n + 16 ≤ s.romLength →
    ∃ s1 s2 s3, exec (.writeTile m t) s = .next s1 ∧ exec (.writeTile n u) s1 = .next s3 ∧
      exec (.writeTile n u) s = .next s2 ∧ exec (.writeTile m t) s2 = .next s3

/-- R55: writing the same tile value twice leaves the same bytes as writing it once. -/
def Obligations.WritingATileTwiceIsWritingItOnce : Prop :=
  ∀ (s : State) (n : Nat) (flat : List Nat), s.Inv → s.romValid = true → flat.length = 64 →
    tileOff s n + 16 ≤ s.romLength →
    ∃ s1, exec (.writeTile n flat) s = .next s1 ∧ exec (.writeTile n flat) s1 = .next s1

/-- R59 and R234: READ_ROM right after WRITE_TILE returns the byte that ENCODE gives the tile. -/
def Obligations.ReadRomSeesTheTileJustWritten : Prop :=
  ∀ (s : State) (n k : Nat) (flat : List Nat), s.Inv → s.romValid = true → flat.length = 64 →
    tileOff s n + 16 ≤ s.romLength → k < 16 →
    ∃ s1 enc v, exec (.writeTile n flat) s = .next s1 ∧
      exec (.encode flat) s = .next (s.withResponse (.ok (.dataOut enc))) ∧ enc[k]? = some v ∧
      exec (.readRom (tileOff s n + k)) s1 = .next (s1.withResponse (.ok (.result v)))

/-- R167 with R35's numbers: READ_REG, from any state. -/
def Obligations.ReadRegCommandFollowsItsRule : Prop :=
  ∀ (s : State) (r : Nat),
    (∀ data, decode ⟨0x07, r, data⟩ = .instr (.readReg r)) ∧
    (0xB < r → exec (.readReg r) s = .next (s.withResponse (.err .illegalCommand))) ∧
    (r ≤ 0xB → r ≠ 0 → s.romValid = false →
      exec (.readReg r) s = .next (s.withResponse (.err .noRom))) ∧
    (r ≤ 0xB → 4 ≤ r → s.romValid = true → s.headerPresent = false →
      exec (.readReg r) s = .next (s.withResponse (.err .noHeader))) ∧
    (r ≤ 0xB → (r = 0 ∨ s.romValid = true) → (r < 4 ∨ s.headerPresent = true) →
      ∃ v, [s.romValid.toNat, s.romLength, s.dataOffset, s.headerPresent.toNat,
          s.prgRomSize.toNat, s.chrRomSize.toNat, s.flags6.toNat, s.flags7.toNat,
          s.prgRamSize.toNat, s.flags9.toNat, s.flags10.toNat, s.mapper.toNat][r]? = some v ∧
        exec (.readReg r) s = .next (s.withResponse (.ok (.result v))))

/-- R168: READ_ROM. -/
def Obligations.ReadRomCommandFollowsItsRule : Prop :=
  ∀ (s : State) (a : Nat),
    (∀ data, decode ⟨0x08, a, data⟩ = .instr (.readRom a)) ∧
    (s.romValid = false → exec (.readRom a) s = .next (s.withResponse (.err .noRom))) ∧
    (s.romValid = true → s.romLength ≤ a →
      exec (.readRom a) s = .next (s.withResponse (.err .indexOutOfRange))) ∧
    (s.Inv → s.romValid = true → a < s.romLength →
      ∃ b, Memory.read s.rom a = some b ∧
        exec (.readRom a) s = .next (s.withResponse (.ok (.result b.toNat))))

/-- R169: a tile index can be read exactly when it is below the tile count. -/
def Obligations.TileCountBoundsTheIndex : Prop :=
  ∀ (s : State) (n : Nat), s.Inv → s.romValid = true →
    tileCount s = (if s.dataOffset ≤ s.romLength then (s.romLength - s.dataOffset) / 16 else 0) ∧
    (inRange s (tileOff s n) = true ↔ n < tileCount s) ∧
    (n < tileCount s →
      ∃ flat, exec (.readTile n) s = .next (s.withResponse (.ok (.dataOut flat)))) ∧
    (tileCount s ≤ n →
      exec (.readTile n) s = .next (s.withResponse (.err .indexOutOfRange))) ∧
    (s.headerPresent = true → 16 ≤ s.romLength)

/-! ### Errors -/

/-- R201: each command raises the errors of its row and no others, each of them somewhere, and
IllegalCommand is what a reserved OPC raises. -/
def Obligations.CommandsRaiseTheErrorsOfTheirRow : Prop :=
  (∀ (i : Instr) (s t : State) (e : ErrorCause), exec i s = .next t →
    t.response = some (.err e) → mayRaise i.opcode e = true) ∧
  (∀ (op : Opcode) (e : ErrorCause), mayRaise op e = true →
    ∃ (i : Instr) (s : State), i.opcode = op ∧ s.Inv ∧
      exec i s = .next (s.withResponse (.err e))) ∧
  ∀ (c : Command) (s : State), decode c = .reserved →
    issue c s = .next (s.withResponse (.err .illegalCommand))

/-- R202: a command that ends with a STATUS other than OK writes no state and outputs nothing; only
the command's own place in the host's list is used up (log 1). (For PARSE this is the spec's decision D8,
log 8.) -/
def Obligations.ErrorsChangeNoState : Prop :=
  ∀ (s t : State) (e : ErrorCause), step s = .next t → t.response = some (.err e) →
    ∃ c rest, s.program = c :: rest ∧
      t = (s.withProgram rest).withResponse (.err e) ∧
      Response.resultPort (.err e) = none ∧ Response.dataOutPort (.err e) = none

/-- R204 (the spec's decision D6, log 9): which error is reported when several apply. -/
def Obligations.FirstErrorInOrderIsReported : Prop :=
  ∀ s : State,
    (∀ (c : Command) (rest : List Command), s.program = c :: rest →
      (c.cmd.toNat = 0 ∨ 9 ≤ c.cmd.toNat) →
      step s = .next ((s.withProgram rest).withResponse (.err .illegalCommand))) ∧
    (∀ r, 0xB < r → exec (.readReg r) s = .next (s.withResponse (.err .illegalCommand))) ∧
    (∀ r, r ≤ 0xB → r ≠ 0 → s.romValid = false →
      exec (.readReg r) s = .next (s.withResponse (.err .noRom))) ∧
    (∀ r, r ≤ 0xB → 4 ≤ r → s.romValid = true → s.headerPresent = false →
      exec (.readReg r) s = .next (s.withResponse (.err .noHeader))) ∧
    (∀ n, s.romValid = false → exec (.tileOffset n) s = .next (s.withResponse (.err .noRom))) ∧
    (∀ n, s.romValid = false → exec (.readTile n) s = .next (s.withResponse (.err .noRom))) ∧
    (∀ n, s.romValid = true → s.romLength < tileOff s n + 16 →
      exec (.readTile n) s = .next (s.withResponse (.err .indexOutOfRange))) ∧
    (∀ n flat, s.romValid = false →
      exec (.writeTile n flat) s = .next (s.withResponse (.err .noRom))) ∧
    (∀ n flat, s.romValid = true → flat.length ≠ 64 →
      exec (.writeTile n flat) s = .next (s.withResponse (.err .invalidInputSize))) ∧
    (∀ n flat, s.romValid = true → flat.length = 64 → s.romLength < tileOff s n + 16 →
      exec (.writeTile n flat) s = .next (s.withResponse (.err .indexOutOfRange))) ∧
    (∀ a, s.romValid = false → exec (.readRom a) s = .next (s.withResponse (.err .noRom))) ∧
    (∀ a, s.romValid = true → s.romLength ≤ a →
      exec (.readRom a) s = .next (s.withResponse (.err .indexOutOfRange))) ∧
    (∀ enc, enc.length ≠ 16 →
      exec (.decode enc) s = .next (s.withResponse (.err .invalidInputSize))) ∧
    (∀ flat, flat.length ≠ 64 →
      exec (.encode flat) s = .next (s.withResponse (.err .invalidInputSize))) ∧
    (∀ buf, buf.take 4 = [0x4E, 0x45, 0x53, 0x1A] → buf.length < 16 →
      exec (.parse buf) s = .next (s.withResponse (.err .malformedHeader)))

/-- R231 and R232: with no ROM installed the ROM-dependent commands raise NoRom and no other command
does; DECODE and ENCODE work, with the answer they give in every state, and so do READ_REG of
ROM_VALID (R35) and PARSE of any buffer but a short one with the magic (R130). -/
def Obligations.OnlyRomDependentCommandsRaiseNoRom : Prop :=
  ∀ s : State, s.romValid = false →
    (∀ i : Instr,
      ((∃ n, i = .tileOffset n) ∨ (∃ n, i = .readTile n) ∨ (∃ n flat, i = .writeTile n flat) ∨
        (∃ a, i = .readRom a) ∨ (∃ r, 1 ≤ r ∧ r ≤ 0xB ∧ i = .readReg r)) ↔
      exec i s = .next (s.withResponse (.err .noRom))) ∧
    (∀ enc, enc.length = 16 → ∃ px, px.length = 64 ∧
      ∀ u : State, exec (.decode enc) u = .next (u.withResponse (.ok (.dataOut px)))) ∧
    (∀ flat, flat.length = 64 → ∃ bytes, bytes.length = 16 ∧
      ∀ u : State, exec (.encode flat) u = .next (u.withResponse (.ok (.dataOut bytes)))) ∧
    exec (.readReg 0) s = .next (s.withResponse (.ok (.result 0))) ∧
    ∀ buf, buf.take 4 ≠ [0x4E, 0x45, 0x53, 0x1A] ∨ 16 ≤ buf.length →
      ∃ t, exec (.parse buf) s = .next t ∧ t.response = some (.ok .none) ∧ t.romValid = true

/-! ### Rules of the whole machine -/

/-- 10_state.md section 2 and R51: only PARSE writes the registers, only PARSE and WRITE_TILE write
the ROM memory, and no command touches the commands waiting or the parameters. -/
def Obligations.OnlyParseAndWriteTileWrite : Prop :=
  ∀ (i : Instr) (s t : State), exec i s = .next t →
    s.SameHost t ∧
    ((∀ buf, i ≠ .parse buf) → s.SameRegisters t) ∧
    (i.readsOnly = true → s.SameMemory t ∧ t.rom = s.rom)

/-- R23 and R233: once a ROM is installed no step removes it, a failed PARSE included (the spec's
decision D8, log 8), and only a PARSE that ends with OK installs one. -/
def Obligations.OnceInstalledTheRomStays : Prop :=
  ∀ s t : State, step s = .next t →
    (s.romValid = true → t.romValid = true) ∧
    (s.romValid = false → t.romValid = true →
      ∃ c rest buf, s.program = c :: rest ∧ decode c = .instr (.parse buf) ∧
        t.response = some (.ok .none))

/-- R37 and R236: but for PARSE, the only command that can change ROM bytes 0..15 is WRITE_TILE of
tile 0 on a headerless ROM, and then HEADER_PRESENT and DATA_OFFSET stay 0. -/
def Obligations.HeaderBytesChangeOnlyWithoutHeader : Prop :=
  ∀ (i : Instr) (s t : State) (a : Nat), s.Inv → exec i s = .next t → (∀ buf, i ≠ .parse buf) →
    a < 16 → Memory.read t.rom a ≠ Memory.read s.rom a →
    (∃ flat, i = .writeTile 0 flat) ∧ s.headerPresent = false ∧
      t.headerPresent = false ∧ t.dataOffset = 0

/-- R35 and R230: a register that READ_REG refuses to show never shows in any other way: from two
states that differ only in such registers, a step gives the same response and again two such
states. -/
def Obligations.UnobservableRegistersNeverShow : Prop :=
  ∀ s t : State, s.Alike t → OutcomesAlike (step s) (step t)

/-- R78: a few lines of program text and the commands they stand for. (That an operand port the form
does not name carries 0 or the empty sequence, and that a text with a line of no form assembles to
nothing, are the model's choices, log 15.) -/
def Obligations.AssemblerReadsTheCommandForms : Prop :=
  assemble "READ_REG MAPPER ; the derived register" = some [⟨0x07, 0xB, []⟩] ∧
  assemble "TILE_OFFSET 0x10" = some [⟨0x04, 16, []⟩] ∧
  assemble "WRITE_TILE 1, fill(3, 4) ++ [0, 0xff]" = some [⟨0x06, 1, [3, 3, 3, 3, 0, 255]⟩] ∧
  assemble "read_reg 0" = none

/-- R35 and R78: each of the twelve register names stands for its register number in a READ_REG
line, read from the text and as an operand. (That DATA_IN, which the form does not name, carries the
empty sequence is the model's choice, log 15.) -/
def Obligations.RegisterNamesStandForTheirNumbers : Prop :=
  ∀ entry ∈ ([("ROM_VALID", 0x0), ("ROM_LENGTH", 0x1), ("DATA_OFFSET", 0x2),
      ("HEADER_PRESENT", 0x3), ("PRG_ROM_SIZE", 0x4), ("CHR_ROM_SIZE", 0x5), ("FLAGS6", 0x6),
      ("FLAGS7", 0x7), ("PRG_RAM_SIZE", 0x8), ("FLAGS9", 0x9), ("FLAGS10", 0xA),
      ("MAPPER", 0xB)] : List (String × Nat)),
    assemble ("READ_REG " ++ entry.1) = some [⟨0x07, entry.2, []⟩] ∧
    assembleOperands .readReg [.word entry.1.toList] = some ⟨0x07, entry.2, []⟩ ∧
    assembleOperands .readReg [.num entry.2] = some ⟨0x07, entry.2, []⟩

/-- R78's eight forms and R79: each mnemonic's line of text is the command with its CMD byte and its
operands, for every number, spelled in decimal or hexadecimal, and every sequence expression of list
literals, `fill` and `++`. (That an operand port the form does not name carries 0 or the empty
sequence is the model's choice, log 15.) -/
def Obligations.EveryCommandHasAnAssemblerForm : Prop :=
  ∀ spell : Nat → String, SpellsNumbers spell →
    (∀ terms : List SeqTerm, terms ≠ [] →
      assemble ("PARSE " ++ seqText spell terms) = some [⟨0x01, 0, seqValue terms⟩] ∧
      assemble ("DECODE " ++ seqText spell terms) = some [⟨0x02, 0, seqValue terms⟩] ∧
      assemble ("ENCODE " ++ seqText spell terms) = some [⟨0x03, 0, seqValue terms⟩] ∧
      ∀ n, assemble ("WRITE_TILE " ++ spell n ++ ", " ++ seqText spell terms) =
        some [⟨0x06, n, seqValue terms⟩]) ∧
    ∀ n,
      assemble ("TILE_OFFSET " ++ spell n) = some [⟨0x04, n, []⟩] ∧
      assemble ("READ_TILE " ++ spell n) = some [⟨0x05, n, []⟩] ∧
      assemble ("READ_REG " ++ spell n) = some [⟨0x07, n, []⟩] ∧
      assemble ("READ_ROM " ++ spell n) = some [⟨0x08, n, []⟩]
end

