-- ==== Sys2Proof/Laws/Assembler.lean ====
section
/-! SUPPORT. Laws of the assembler: what a number, a sequence expression and a line of text read as. -/

namespace Sys2Proof.Machine

/-! ### Numbers -/

theorem decimalDigit_digitChar : ∀ d < 10, decimalDigit (Nat.digitChar d) = some d := by decide
theorem hexDigit_digitChar : ∀ d < 16, hexDigit (Nat.digitChar d) = some d := by decide
theorem wordChar_digitChar : ∀ d < 16, wordChar (Nat.digitChar d) = true := by decide

theorem digitsValue_append (b : Nat) (digit : Char → Option Nat) (l m : List Char) (acc : Nat) :
    digitsValue b digit acc (l ++ m) =
      (digitsValue b digit acc l).bind fun v => digitsValue b digit v m := by
  induction l generalizing acc with
  | nil => rfl
  | cons c l ih =>
    simp only [List.cons_append, digitsValue]
    cases digit c <;> simp [ih]

/-- Digits printed in a base read back as the number. -/
theorem digitsValue_toDigits {b : Nat} {digit : Char → Option Nat} (hb : 1 < b)
    (hd : ∀ d < b, digit (Nat.digitChar d) = some d) (n : Nat) :
    digitsValue b digit 0 (Nat.toDigits b n) = some n := by
  induction n using Nat.strongRecOn with
  | _ n ih =>
    rcases Nat.lt_or_ge n b with h | h
    · simp [Nat.toDigits_of_lt_base h, digitsValue, hd n h]
    · rw [Nat.toDigits_of_base_le hb h, digitsValue_append,
        ih _ (Nat.div_lt_self (by omega) hb)]
      simp only [Option.bind_some, digitsValue, hd _ (Nat.mod_lt n (by omega))]
      rw [Nat.div_add_mod']

/-- Every printed character is the digit of a number below the base. -/
theorem mem_toDigits {b : Nat} (hb : 1 < b) {n : Nat} {c : Char} (hc : c ∈ Nat.toDigits b n) :
    ∃ d < b, c = Nat.digitChar d := by
  induction n using Nat.strongRecOn with
  | _ n ih =>
    rcases Nat.lt_or_ge n b with h | h
    · rw [Nat.toDigits_of_lt_base h] at hc
      exact ⟨n, h, by simpa using hc⟩
    · rw [Nat.toDigits_of_base_le hb h, List.mem_append] at hc
      rcases hc with hc | hc
      · exact ih _ (Nat.div_lt_self (by omega) hb) hc
      · exact ⟨n % b, Nat.mod_lt n (by omega), by simpa using hc⟩

theorem toDigits_ne_nil {b : Nat} (hb : 1 < b) (n : Nat) : Nat.toDigits b n ≠ [] := by
  rcases Nat.lt_or_ge n b with h | h
  · simp [Nat.toDigits_of_lt_base h]
  · simp [Nat.toDigits_of_base_le hb h]

/-- A word or number of program text and the token it is. -/
structure ReadsAs (w : List Char) (t : Token) : Prop where
  nonempty : w ≠ []
  wordChars : ∀ c ∈ w, wordChar c = true
  token : wordToken w.reverse = some t

theorem readsAs_decimal (n : Nat) : ReadsAs (Nat.toDigits 10 n) (.num n) := by
  have hne := toDigits_ne_nil (b := 10) (by omega) n
  have hmem : ∀ c ∈ Nat.toDigits 10 n, ∃ d < 10, c = Nat.digitChar d :=
    fun c hc => mem_toDigits (by omega) hc
  have hval := digitsValue_toDigits (by omega) decimalDigit_digitChar n
  refine ⟨hne, fun c hc => ?_, ?_⟩
  · obtain ⟨d, hd, rfl⟩ := hmem c hc
    exact wordChar_digitChar d (by omega)
  · rw [wordToken, List.reverse_reverse]
    have hx : ∀ c cs, Nat.toDigits 10 n ≠ c :: 'x' :: cs := by
      intro c cs h
      obtain ⟨d, hd, hc⟩ := hmem 'x' (by simp [h])
      revert hc; revert d; decide
    cases h : Nat.toDigits 10 n with
    | nil => exact absurd h hne
    | cons c cs =>
      obtain ⟨d, hd, rfl⟩ := hmem c (by simp [h])
      have hnum : numberValue (Nat.digitChar d :: cs) = some n := by
        rw [numberValue]
        · rw [← h]; exact hval
        · simp
        · intro h'; exact hx '0' [] (h.trans h')
        · intro hex h'; exact hx '0' hex (h.trans h')
      simp [decimalDigit_digitChar d hd, hnum]

theorem readsAs_hex (n : Nat) : ReadsAs ('0' :: 'x' :: Nat.toDigits 16 n) (.num n) := by
  have hne := toDigits_ne_nil (b := 16) (by omega) n
  refine ⟨by simp, fun c hc => ?_, ?_⟩
  · rcases List.mem_cons.1 hc with rfl | hc
    · decide
    · rcases List.mem_cons.1 hc with rfl | hc
      · decide
      · obtain ⟨d, hd, rfl⟩ := mem_toDigits (by omega) hc
        exact wordChar_digitChar d hd
  · rw [wordToken, List.reverse_reverse]
    have hnum : numberValue ('0' :: 'x' :: Nat.toDigits 16 n) = some n := by
      rw [numberValue]
      · exact digitsValue_toDigits (by omega) hexDigit_digitChar n
      · exact hne
    have h0 : (decimalDigit '0').isSome = true := by decide
    simp [h0, hnum]

/-- R78's numbers: decimal or hexadecimal. -/
theorem readsAs_spell {spell : Nat → String} (h : SpellsNumbers spell) (n : Nat) :
    ReadsAs (spell n).toList (.num n) := by
  rcases h n with h | h
  · rw [h]; simpa [Nat.repr] using readsAs_decimal n
  · rw [h]; simpa using readsAs_hex n

/-! ### Tokens -/

/-- The characters stand on one line and, whatever follows, lex to the tokens. -/
def Lexes (cs : List Char) (ts : List Token) : Prop :=
  '\n' ∉ cs ∧ ∀ rest toks, lexLine (cs ++ rest) [] toks = lexLine rest [] (ts.reverse ++ toks)

theorem Lexes.nil : Lexes [] [] := ⟨by simp, fun _ _ => rfl⟩

theorem Lexes.append {cs ds : List Char} {ts us : List Token} (h : Lexes cs ts) (g : Lexes ds us) :
    Lexes (cs ++ ds) (ts ++ us) := by
  refine ⟨by simp [h.1, g.1], fun rest toks => ?_⟩
  rw [List.append_assoc, h.2, g.2]; simp

theorem lexLine_wordChars {w : List Char} (h : ∀ c ∈ w, wordChar c = true)
    (rest pending : List Char) (toks : List Token) :
    lexLine (w ++ rest) pending toks = lexLine rest (w.reverse ++ pending) toks := by
  induction w generalizing pending with
  | nil => rfl
  | cons c w ih =>
    have hc := h c (by simp)
    have hplus : c ≠ '+' := by rintro rfl; revert hc; decide
    have hsemi : c ≠ ';' := by rintro rfl; revert hc; decide
    rw [List.cons_append, lexLine]
    · simp [hsemi, hc, ih fun c hc => h c (by simp [hc])]
    · intro cs hcs; exact absurd hcs hplus

theorem ReadsAs.closeWord {w : List Char} {t : Token} (h : ReadsAs w t) (toks : List Token) :
    closeWord w.reverse toks = some (t :: toks) := by
  have htok := h.token
  cases hr : w.reverse with
  | nil => exact absurd (by simpa using hr) h.nonempty
  | cons c cs => rw [hr] at htok; simp [Sys2Proof.Machine.closeWord, htok]

/-- The line of one last word or number. -/
theorem ReadsAs.lexLine_end {w : List Char} {t : Token} (h : ReadsAs w t) (toks : List Token) :
    lexLine w [] toks = some (toks.reverse ++ [t]) := by
  have := lexLine_wordChars h.wordChars [] [] toks
  rw [List.append_nil, List.append_nil] at this
  simp [this, lexLine, h.closeWord]

theorem ReadsAs.no_newline {w : List Char} {t : Token} (h : ReadsAs w t) : '\n' ∉ w := fun hm =>
  absurd (h.wordChars _ hm) (by decide)

/-- A character that ends a word: a punctuation token, or a blank that is none. -/
def Ends (c : Char) (ts : List Token) : Prop :=
  c ≠ '+' ∧ c ≠ ';' ∧ c ≠ '\n' ∧ wordChar c = false ∧
    ((∃ t, punctuation c = some t ∧ ts = [t]) ∨
      (punctuation c = none ∧ (c = ' ' || c = '\t' || c = '\r') = true ∧ ts = []))

theorem ends_comma : Ends ',' [.comma] := by
  refine ⟨by decide, by decide, by decide, by decide, .inl ⟨_, rfl, rfl⟩⟩
theorem ends_rbracket : Ends ']' [.rbracket] := by
  refine ⟨by decide, by decide, by decide, by decide, .inl ⟨_, rfl, rfl⟩⟩
theorem ends_lbracket : Ends '[' [.lbracket] := by
  refine ⟨by decide, by decide, by decide, by decide, .inl ⟨_, rfl, rfl⟩⟩
theorem ends_rparen : Ends ')' [.rparen] := by
  refine ⟨by decide, by decide, by decide, by decide, .inl ⟨_, rfl, rfl⟩⟩
theorem ends_lparen : Ends '(' [.lparen] := by
  refine ⟨by decide, by decide, by decide, by decide, .inl ⟨_, rfl, rfl⟩⟩
theorem ends_space : Ends ' ' [] := by
  refine ⟨by decide, by decide, by decide, by decide, .inr ⟨rfl, by decide, rfl⟩⟩

theorem Ends.lexLine {c : Char} {ts : List Token} (h : Ends c ts) (rest pending : List Char)
    (toks : List Token) :
    lexLine (c :: rest) pending toks =
      (closeWord pending toks).bind fun toks => lexLine rest [] (ts ++ toks) := by
  obtain ⟨hplus, hsemi, -, hw, ht⟩ := h
  rw [Sys2Proof.Machine.lexLine]
  · simp only [hsemi, if_false, hw, Bool.false_eq_true]
    cases closeWord pending toks with
    | none => rfl
    | some toks =>
      rcases ht with ⟨t, ht, rfl⟩ | ⟨ht, hb, rfl⟩
      · simp [ht]
      · simp only [ht, Option.bind_some, List.nil_append]; exact if_pos hb
  · intro cs hcs; exact absurd hcs hplus

theorem Ends.lexes {c : Char} {ts : List Token} (h : Ends c ts) : Lexes [c] ts := by
  refine ⟨by simpa using h.2.2.1.symm, fun rest toks => ?_⟩
  rw [List.singleton_append, h.lexLine]
  obtain ⟨-, -, -, -, ⟨t, -, rfl⟩ | ⟨-, -, rfl⟩⟩ := h <;> rfl

theorem ReadsAs.lexes {w : List Char} {t : Token} (h : ReadsAs w t) {c : Char} {ts : List Token}
    (hc : Ends c ts) : Lexes (w ++ [c]) (t :: ts) := by
  refine ⟨by simp [h.no_newline, hc.2.2.1.symm], fun rest toks => ?_⟩
  rw [List.append_assoc, lexLine_wordChars h.wordChars, List.singleton_append, hc.lexLine]
  rw [List.append_nil, h.closeWord]
  obtain ⟨-, -, -, -, ⟨t, -, rfl⟩ | ⟨-, -, rfl⟩⟩ := hc <;> rfl

theorem lexes_concat : Lexes ['+', '+'] [.concat] :=
  ⟨by decide, fun rest toks => by simp [lexLine, closeWord]⟩

/-! ### Sequence expressions -/

/-- The tokens after a list literal's `[`. -/
def elementTokens : List Nat → List Token
  | []           => [.rbracket]
  | [v]          => [.num v, .rbracket]
  | v :: w :: vs => .num v :: .comma :: elementTokens (w :: vs)

/-- The tokens of a term. -/
def SeqTerm.tokens : SeqTerm → List Token
  | .literal vs => .lbracket :: elementTokens vs
  | .fill v k   => [.word "fill".toList, .lparen, .num v, .comma, .num k, .rparen]

/-- The tokens of a sequence expression. -/
def seqTokens : List SeqTerm → List Token
  | []           => []
  | [t]          => t.tokens
  | t :: u :: ts => t.tokens ++ .concat :: seqTokens (u :: ts)

theorem lexes_elements {spell : Nat → String} (h : SpellsNumbers spell) (vs : List Nat) :
    Lexes (List.intercalate [',', ' '] (vs.map fun v => (spell v).toList) ++ [']'])
      (elementTokens vs) := by
  induction vs with
  | nil => exact ends_rbracket.lexes
  | cons v vs ih =>
    cases vs with
    | nil => simpa [elementTokens] using (readsAs_spell h v).lexes ends_rbracket
    | cons w vs =>
      have := (((readsAs_spell h v).lexes ends_comma).append ends_space.lexes).append ih
      simpa [elementTokens, List.intercalate] using this

theorem readsAs_fill : ReadsAs "fill".toList (.word "fill".toList) where
  nonempty := by simp
  wordChars := by simp; decide
  token := by simp [wordToken, decimalDigit]

theorem lexes_term {spell : Nat → String} (h : SpellsNumbers spell) (t : SeqTerm) :
    Lexes (t.text spell).toList t.tokens := by
  cases t with
  | literal vs =>
    have := ends_lbracket.lexes.append (lexes_elements h vs)
    simpa [SeqTerm.text, SeqTerm.tokens, String.toList_intercalate, Function.comp_def] using this
  | fill v k =>
    have := (readsAs_fill.lexes ends_lparen).append (((readsAs_spell h v).lexes ends_comma).append
      (ends_space.lexes.append ((readsAs_spell h k).lexes ends_rparen)))
    simpa [SeqTerm.text, SeqTerm.tokens] using this

/-- A sequence expression's text lexes to its tokens. -/
theorem lexes_seqText {spell : Nat → String} (h : SpellsNumbers spell) (ts : List SeqTerm) :
    Lexes (seqText spell ts).toList (seqTokens ts) := by
  rw [seqText, String.toList_intercalate, List.map_map]
  induction ts with
  | nil => exact Lexes.nil
  | cons t ts ih =>
    cases ts with
    | nil => simpa [seqTokens] using lexes_term h t
    | cons u ts =>
      have := (lexes_term h t).append (((ends_space.lexes.append lexes_concat).append
        ends_space.lexes).append ih)
      simpa [seqTokens, List.intercalate] using this

theorem parseElements_tokens {vs : List Nat} (h : vs ≠ []) (rest : List Token) :
    parseElements (elementTokens vs ++ rest) = some (vs, rest) := by
  induction vs with
  | nil => contradiction
  | cons v vs ih =>
    cases vs with
    | nil => rfl
    | cons w vs => simp [elementTokens, parseElements, ih]

theorem parseTerm_tokens (t : SeqTerm) (rest : List Token) :
    parseTerm (t.tokens ++ rest) = some (t.value, rest) := by
  cases t with
  | fill v k => simp [SeqTerm.tokens, parseTerm, SeqTerm.value]
  | literal vs =>
    cases vs with
    | nil => rfl
    | cons v vs =>
      have := parseElements_tokens (vs := v :: vs) (by simp) rest
      cases vs <;> simpa [SeqTerm.tokens, elementTokens, parseTerm, SeqTerm.value] using this

theorem parseTerms_tokens {ts : List SeqTerm} (h : ts ≠ []) {fuel : Nat} (hf : ts.length ≤ fuel) :
    parseTerms fuel (seqTokens ts) = some (seqValue ts) := by
  induction ts generalizing fuel with
  | nil => contradiction
  | cons t ts ih =>
    obtain ⟨fuel, rfl⟩ : ∃ k, fuel = k + 1 := ⟨fuel - 1, by simp at hf; omega⟩
    cases ts with
    | nil =>
      have := parseTerm_tokens t []
      rw [List.append_nil] at this
      simp [seqTokens, parseTerms, this, seqValue]
    | cons u ts =>
      simp [seqTokens, parseTerms, parseTerm_tokens, seqValue,
        ih (by simp) (by simpa using hf : (u :: ts).length ≤ fuel)]

theorem length_le_seqTokens (ts : List SeqTerm) : ts.length ≤ (seqTokens ts).length := by
  induction ts with
  | nil => simp [seqTokens]
  | cons t ts ih =>
    cases ts with
    | nil => cases t <;> simp [seqTokens, SeqTerm.tokens]
    | cons u ts => simp [seqTokens] at ih ⊢; omega

/-- A sequence expression parses to the sequence it stands for. -/
theorem parseSequence_tokens {ts : List SeqTerm} (h : ts ≠ []) :
    parseSequence (seqTokens ts) = some (seqValue ts) :=
  parseTerms_tokens h (length_le_seqTokens ts)

/-! ### Lines -/

theorem splitLines_one {cs : List Char} (h : '\n' ∉ cs) (rev : List Char) :
    splitLines cs rev = [rev.reverse ++ cs] := by
  induction cs generalizing rev with
  | nil => simp [splitLines]
  | cons c cs ih =>
    have hc : c ≠ '\n' := fun hc => h (by simp [hc])
    rw [splitLines, if_neg hc, ih fun hm => h (by simp [hm])]; simp

/-- A text of one line that starts with a mnemonic is the command of its operands. -/
theorem assemble_line {text : String} {w : List Char} {ts : List Token} {op : Opcode} {c : Command}
    (hnl : '\n' ∉ text.toList) (hlex : lexLine text.toList [] [] = some (.word w :: ts))
    (hop : lookupName w mnemonicTable = some op) (hc : assembleOperands op ts = some c) :
    assemble text = some [c] := by
  simp [assemble, splitLines_one hnl, assembleLines, assembleLine, hlex, hop, hc]

/-- A mnemonic and a number. -/
theorem assemble_numberLine {text : String} {w : List Char} {op : Opcode} {n : Nat} {c : Command}
    {spell : Nat → String} (h : SpellsNumbers spell) (hw : ReadsAs w (.word w))
    (ht : text.toList = w ++ [' '] ++ (spell n).toList)
    (hop : lookupName w mnemonicTable = some op)
    (hc : assembleOperands op [.num n] = some c) : assemble text = some [c] := by
  have hn := readsAs_spell h n
  refine assemble_line (w := w) (ts := [.num n]) ?_ ?_ hop hc
  · rw [ht]; simpa using ⟨hw.no_newline, hn.no_newline⟩
  · rw [ht, (hw.lexes ends_space).2, hn.lexLine_end]; rfl

/-- A mnemonic, the tokens before a sequence expression (a tile index and a comma, or none), and the
sequence expression. -/
theorem assemble_sequenceLine {text : String} {before w : List Char} {toks : List Token}
    {op : Opcode} {c : Command} {terms : List SeqTerm} {spell : Nat → String}
    (h : SpellsNumbers spell) (hb : Lexes before (.word w :: toks))
    (ht : text.toList = before ++ (seqText spell terms).toList)
    (hop : lookupName w mnemonicTable = some op)
    (hc : assembleOperands op (toks ++ seqTokens terms) = some c) : assemble text = some [c] := by
  have hl := hb.append (lexes_seqText h terms)
  refine assemble_line (w := w) (ts := toks ++ seqTokens terms) (by rw [ht]; exact hl.1) ?_ hop hc
  have := hl.2 [] []
  rw [List.append_nil] at this
  rw [ht, this]; simp [lexLine, closeWord]

end Sys2Proof.Machine
end

