-- ==== Sys2Proof/Laws/Codec.lean ====
section
/-! SUPPORT. What the codec's operations compute, in lengths, elements and natural arithmetic. -/

namespace Sys2Proof.Machine

/-! ### Bits of a byte -/

theorem bit_eq (b : Byte) (i : Nat) : bit b i = b.toNat / 2 ^ i % 2 := by
  rw [bit, Nat.and_one_is_mod, Nat.shiftRight_eq_div_pow]

theorem bit_eq_toNat (b : Byte) (i : Nat) : bit b i = (b.getLsbD i).toNat := by
  rw [bit_eq, BitVec.getLsbD, Nat.testBit_eq_decide_div_mod_eq]
  rcases Nat.mod_two_eq_zero_or_one (b.toNat / 2 ^ i) with h | h <;> simp [h]

theorem bit_lt_two (b : Byte) (i : Nat) : bit b i < 2 := by
  rw [bit_eq]; exact Nat.mod_lt _ (by decide)

/-- Two bytes are equal when their bits at 7-x are, for the eight columns x. -/
theorem byte_ext_bits {b c : Byte} (h : ∀ x < 8, bit b (7 - x) = bit c (7 - x)) : b = c := by
  refine BitVec.eq_of_getLsbD_eq fun i hi => ?_
  have := h (7 - i) (by omega)
  rw [bit_eq_toNat, bit_eq_toNat, show 7 - (7 - i) = i by omega] at this
  revert this
  cases b.getLsbD i <;> cases c.getLsbD i <;> simp

theorem getElem?_eq_byteAt {bytes : List Byte} {k : Nat} (h : k < bytes.length) :
    bytes[k]? = some (byteAt bytes k) := by
  simp [byteAt, List.getD_eq_getElem?_getD, h]

/-! ### DECODE -/

/-- R107's closed form of one pixel. -/
theorem decodePixel_eq (enc : List Byte) (y x : Nat) :
    decodePixel enc y x =
      bit (byteAt enc y) (7 - x) + 2 * bit (byteAt enc (8 + y)) (7 - x) := by
  have h0 := bit_lt_two (byteAt enc y) (7 - x)
  have h1 := bit_lt_two (byteAt enc (8 + y)) (7 - x)
  rw [decodePixel]
  generalize bit (byteAt enc y) (7 - x) = p at *
  generalize bit (byteAt enc (8 + y)) (7 - x) = q at *
  interval_cases p <;> interval_cases q <;> rfl

theorem decodePixel_lt (enc : List Byte) (y x : Nat) : decodePixel enc y x < 4 := by
  have h0 := bit_lt_two (byteAt enc y) (7 - x)
  have h1 := bit_lt_two (byteAt enc (8 + y)) (7 - x)
  rw [decodePixel_eq]; omega

@[simp] theorem decodeTile_length (enc : List Byte) : (decodeTile enc).length = 64 := by
  simp [decodeTile]

theorem decodeTile_getElem? (enc : List Byte) (i : Nat) (hi : i < 64) :
    (decodeTile enc)[i]? = some (decodePixel enc (i / 8) (i % 8)) := by
  simp [decodeTile, hi]

/-- Element `y*8 + x` of the decoded tile is pixel (x, y). -/
theorem decodeTile_pixel (enc : List Byte) (y x : Nat) (hy : y < 8) (hx : x < 8) :
    (decodeTile enc)[y * 8 + x]? = some (decodePixel enc y x) := by
  rw [decodeTile_getElem? _ _ (by omega), show (y * 8 + x) / 8 = y by omega,
    show (y * 8 + x) % 8 = x by omega]

/-- Every decoded value is in 0..3. -/
theorem decodeTile_lt (enc : List Byte) : ∀ v ∈ decodeTile enc, v < 4 := by
  intro v hv
  obtain ⟨i, -, rfl⟩ := List.mem_map.mp hv
  exact decodePixel_lt _ _ _

/-! ### ENCODE -/

theorem pixelAt_eq (flat : List Nat) (y x : Nat) :
    pixelAt flat y x = flat.getD (y * 8 + x) 0 % 4 := by
  rw [pixelAt, show (3 : Nat) = 2 ^ 2 - 1 by rfl, Nat.and_two_pow_sub_one_eq_mod]

theorem pixelAt_plane0 (flat : List Nat) (y x : Nat) :
    pixelAt flat y x &&& 1 = flat.getD (y * 8 + x) 0 % 2 := by
  rw [Nat.and_one_is_mod, pixelAt_eq]; omega

theorem pixelAt_plane1 (flat : List Nat) (y x : Nat) :
    (pixelAt flat y x &&& 2) >>> 1 = flat.getD (y * 8 + x) 0 / 2 % 2 := by
  rw [pixelAt_eq]
  have h : flat.getD (y * 8 + x) 0 / 2 % 2 = flat.getD (y * 8 + x) 0 % 4 / 2 := by omega
  rw [h]
  have hlt : flat.getD (y * 8 + x) 0 % 4 < 4 := Nat.mod_lt _ (by decide)
  generalize flat.getD (y * 8 + x) 0 % 4 = v at *
  interval_cases v <;> rfl

/-- A plane byte holds the plane's bit of pixel x at bit 7-x. -/
theorem bit_planeByte (f : Nat → Nat) (hf : ∀ x < 8, f x < 2) (x : Nat) (hx : x < 8) :
    bit (planeByte f) (7 - x) = f x := by
  have h0 := hf 0 (by omega)
  have h1 := hf 1 (by omega)
  have h2 := hf 2 (by omega)
  have h3 := hf 3 (by omega)
  have h4 := hf 4 (by omega)
  have h5 := hf 5 (by omega)
  have h6 := hf 6 (by omega)
  have h7 := hf 7 (by omega)
  have key : ∀ c0 c1 c2 c3 c4 c5 c6 c7 : Fin 2, ∀ x : Fin 8,
      bit (((((((((0 : Byte) ||| BitVec.ofNat 8 (c0.val <<< 7)) ||| BitVec.ofNat 8 (c1.val <<< 6))
        ||| BitVec.ofNat 8 (c2.val <<< 5)) ||| BitVec.ofNat 8 (c3.val <<< 4))
        ||| BitVec.ofNat 8 (c4.val <<< 3)) ||| BitVec.ofNat 8 (c5.val <<< 2))
        ||| BitVec.ofNat 8 (c6.val <<< 1)) ||| BitVec.ofNat 8 (c7.val <<< 0)) (7 - x.val) =
      ([c0, c1, c2, c3, c4, c5, c6, c7].getD x.val 0).val := by decide
  have := key ⟨f 0, h0⟩ ⟨f 1, h1⟩ ⟨f 2, h2⟩ ⟨f 3, h3⟩ ⟨f 4, h4⟩ ⟨f 5, h5⟩ ⟨f 6, h6⟩ ⟨f 7, h7⟩
    ⟨x, hx⟩
  simp only [planeByte, List.range, List.range.loop, List.foldl]
  interval_cases x <;> exact this

/-- A byte is the sum of its bits. -/
theorem byte_toNat_eq_sum (b : Byte) :
    b.toNat = ∑ x ∈ Finset.range 8, bit b (7 - x) * 2 ^ (7 - x) := by
  have hb : b.toNat < 256 := b.isLt
  simp only [Finset.sum_range_succ, Finset.sum_range_zero, bit_eq]
  norm_num
  omega

theorem bit_plane0Byte (flat : List Nat) (y x : Nat) (hx : x < 8) :
    bit (plane0Byte flat y) (7 - x) = flat.getD (y * 8 + x) 0 % 2 := by
  rw [plane0Byte, bit_planeByte _ (fun x _ => by rw [pixelAt_plane0]; omega) x hx, pixelAt_plane0]

theorem bit_plane1Byte (flat : List Nat) (y x : Nat) (hx : x < 8) :
    bit (plane1Byte flat y) (7 - x) = flat.getD (y * 8 + x) 0 / 2 % 2 := by
  rw [plane1Byte, bit_planeByte _ (fun x _ => by rw [pixelAt_plane1]; omega) x hx, pixelAt_plane1]

@[simp] theorem encodeTile_length (flat : List Nat) : (encodeTile flat).length = 16 := by
  simp [encodeTile]

theorem encodeTile_plane0 (flat : List Nat) (y : Nat) (hy : y < 8) :
    (encodeTile flat)[y]? = some (plane0Byte flat y) := by
  rw [encodeTile, List.getElem?_append_left (by simpa using hy)]
  simp [hy]

theorem encodeTile_plane1 (flat : List Nat) (y : Nat) (hy : y < 8) :
    (encodeTile flat)[8 + y]? = some (plane1Byte flat y) := by
  rw [encodeTile, List.getElem?_append_right (by simp)]
  simp [hy]

@[simp] theorem byteAt_encodeTile_plane0 (flat : List Nat) (y : Nat) (hy : y < 8) :
    byteAt (encodeTile flat) y = plane0Byte flat y := by
  rw [byteAt, List.getD_eq_getElem?_getD, encodeTile_plane0 _ _ hy, Option.getD_some]

@[simp] theorem byteAt_encodeTile_plane1 (flat : List Nat) (y : Nat) (hy : y < 8) :
    byteAt (encodeTile flat) (8 + y) = plane1Byte flat y := by
  rw [byteAt, List.getD_eq_getElem?_getD, encodeTile_plane1 _ _ hy, Option.getD_some]

/-- The pixel read back from an encoded tile: the low two bits of the pixel encoded. -/
theorem decodePixel_encodeTile (flat : List Nat) (y x : Nat) (hy : y < 8) (hx : x < 8) :
    decodePixel (encodeTile flat) y x = flat.getD (y * 8 + x) 0 % 4 := by
  rw [decodePixel_eq, byteAt_encodeTile_plane0 _ _ hy, byteAt_encodeTile_plane1 _ _ hy,
    bit_plane0Byte _ _ _ hx, bit_plane1Byte _ _ _ hx]
  omega

end Sys2Proof.Machine
end

