-- ==== Sys2Proof/Laws/Decode.lean ====
section
/-! SUPPORT. The decoder and the encoder, port by port. -/

namespace Sys2Proof

/-- No two rows of the opcode map share a CMD byte. -/
theorem opcodeTable_distinct : (opcodeTable.map Prod.fst).Pairwise (· ≠ ·) := by decide

/-- Each opcode's byte decodes to it. -/
@[simp] theorem opcodeOfByte_opcodeByte (op : Opcode) : opcodeOfByte (opcodeByte op) = some op := by
  cases op <;> rfl

/-- A CMD byte that decodes to an opcode is that opcode's byte. -/
theorem opcodeByte_of_opcodeOfByte {b : Byte} {op : Opcode} (h : opcodeOfByte b = some op) :
    opcodeByte op = b := by
  revert h
  simp only [opcodeOfByte, opcodeTable, lookupOpcode]
  repeat' split
  all_goals first
    | (intro h; cases h; assumption)
    | (intro h; cases h)

/-- The reserved values are 0x00 and 0x09 to 0xFF. -/
theorem opcodeOfByte_eq_none_iff (b : Byte) :
    opcodeOfByte b = none ↔ b.toNat = 0 ∨ 9 ≤ b.toNat := by
  revert b; decide

theorem bytesOfDataIn_map_toNat (bs : List Byte) :
    bytesOfDataIn (bs.map BitVec.toNat) = some bs := by
  induction bs with
  | nil => rfl
  | cons b bs ih =>
    have : b.toNat < 256 := b.isLt
    simp [bytesOfDataIn, ih, this]

/-- DATA_IN is a byte sequence exactly when every element is below 256, and then it is the
sequence of those bytes. -/
theorem bytesOfDataIn_eq_some_iff (vs : List Nat) (bs : List Byte) :
    bytesOfDataIn vs = some bs ↔ vs = bs.map BitVec.toNat := by
  constructor
  · intro h
    induction vs generalizing bs with
    | nil => cases h; rfl
    | cons v vs ih =>
      rw [bytesOfDataIn] at h
      split at h
      · cases h
      · rename_i bs' hbs'
        split at h
        · rename_i hv
          cases h
          rw [List.map_cons, ← ih _ hbs', BitVec.toNat_ofNat, Nat.mod_eq_of_lt hv]
        · cases h
  · rintro rfl; exact bytesOfDataIn_map_toNat bs

theorem bytesOfDataIn_eq_none_iff (vs : List Nat) :
    bytesOfDataIn vs = none ↔ ∃ v ∈ vs, 255 < v := by
  induction vs with
  | nil => simp [bytesOfDataIn]
  | cons v vs ih =>
    rw [bytesOfDataIn]
    cases h : bytesOfDataIn vs with
    | none => simpa using Or.inr (ih.mp h)
    | some bs =>
      have hno : ¬ ∃ v ∈ vs, 255 < v := fun hv => by rw [ih.mpr hv] at h; cases h
      by_cases hv : v < 256
      · simp only [hv, if_true, List.mem_cons, exists_eq_or_imp]
        simpa [Nat.not_lt.mpr (Nat.le_of_lt_succ hv)] using hno
      · simp [hv]; omega

/-- The opcode of a decoded instruction is its CMD byte's. -/
theorem opcode_of_decode {c : Command} {i : Instr} (h : decode c = .instr i) :
    opcodeOfByte c.cmd = some i.opcode := by
  unfold decode at h
  split at h <;> rename_i hop
  · cases h
  all_goals first
    | (cases h; exact hop)
    | (rw [decodeBytes] at h; split at h <;> cases h; exact hop)

theorem decode_eq_reserved_iff (c : Command) :
    decode c = .reserved ↔ c.cmd.toNat = 0 ∨ 9 ≤ c.cmd.toNat := by
  rw [← opcodeOfByte_eq_none_iff]
  unfold decode
  split <;> rename_i hop <;> rw [hop] <;> simp [decodeBytes] <;> split <;> simp

end Sys2Proof
end

