-- ==== Sys2Proof/Laws/State.lean ====
section
/-! SUPPORT. One lemma for each field of State under each named update, so that no proof unfolds a
record update. -/

namespace Sys2Proof.Machine

variable (s : State)

/-! ### `State.withResponse` -/

@[simp] theorem State.withResponse_romValid (r : Response) : (s.withResponse r).romValid = s.romValid := rfl
@[simp] theorem State.withResponse_rom (r : Response) : (s.withResponse r).rom = s.rom := rfl
@[simp] theorem State.withResponse_romLength (r : Response) : (s.withResponse r).romLength = s.romLength := rfl
@[simp] theorem State.withResponse_dataOffset (r : Response) : (s.withResponse r).dataOffset = s.dataOffset := rfl
@[simp] theorem State.withResponse_headerPresent (r : Response) : (s.withResponse r).headerPresent = s.headerPresent := rfl
@[simp] theorem State.withResponse_prgRomSize (r : Response) : (s.withResponse r).prgRomSize = s.prgRomSize := rfl
@[simp] theorem State.withResponse_chrRomSize (r : Response) : (s.withResponse r).chrRomSize = s.chrRomSize := rfl
@[simp] theorem State.withResponse_flags6 (r : Response) : (s.withResponse r).flags6 = s.flags6 := rfl
@[simp] theorem State.withResponse_flags7 (r : Response) : (s.withResponse r).flags7 = s.flags7 := rfl
@[simp] theorem State.withResponse_prgRamSize (r : Response) : (s.withResponse r).prgRamSize = s.prgRamSize := rfl
@[simp] theorem State.withResponse_flags9 (r : Response) : (s.withResponse r).flags9 = s.flags9 := rfl
@[simp] theorem State.withResponse_flags10 (r : Response) : (s.withResponse r).flags10 = s.flags10 := rfl
@[simp] theorem State.withResponse_mapper (r : Response) : (s.withResponse r).mapper = s.mapper := rfl
@[simp] theorem State.withResponse_program (r : Response) : (s.withResponse r).program = s.program := rfl
@[simp] theorem State.withResponse_response (r : Response) : (s.withResponse r).response = some r := rfl
@[simp] theorem State.withResponse_params (r : Response) : (s.withResponse r).params = s.params := rfl

/-! ### `State.withoutResponse` -/

@[simp] theorem State.withoutResponse_romValid : s.withoutResponse.romValid = s.romValid := rfl
@[simp] theorem State.withoutResponse_rom : s.withoutResponse.rom = s.rom := rfl
@[simp] theorem State.withoutResponse_romLength : s.withoutResponse.romLength = s.romLength := rfl
@[simp] theorem State.withoutResponse_dataOffset : s.withoutResponse.dataOffset = s.dataOffset := rfl
@[simp] theorem State.withoutResponse_headerPresent : s.withoutResponse.headerPresent = s.headerPresent := rfl
@[simp] theorem State.withoutResponse_prgRomSize : s.withoutResponse.prgRomSize = s.prgRomSize := rfl
@[simp] theorem State.withoutResponse_chrRomSize : s.withoutResponse.chrRomSize = s.chrRomSize := rfl
@[simp] theorem State.withoutResponse_flags6 : s.withoutResponse.flags6 = s.flags6 := rfl
@[simp] theorem State.withoutResponse_flags7 : s.withoutResponse.flags7 = s.flags7 := rfl
@[simp] theorem State.withoutResponse_prgRamSize : s.withoutResponse.prgRamSize = s.prgRamSize := rfl
@[simp] theorem State.withoutResponse_flags9 : s.withoutResponse.flags9 = s.flags9 := rfl
@[simp] theorem State.withoutResponse_flags10 : s.withoutResponse.flags10 = s.flags10 := rfl
@[simp] theorem State.withoutResponse_mapper : s.withoutResponse.mapper = s.mapper := rfl
@[simp] theorem State.withoutResponse_program : s.withoutResponse.program = s.program := rfl
@[simp] theorem State.withoutResponse_response : s.withoutResponse.response = none := rfl
@[simp] theorem State.withoutResponse_params : s.withoutResponse.params = s.params := rfl

/-! ### `State.withRom` -/

@[simp] theorem State.withRom_romValid (m : Memory) : (s.withRom m).romValid = s.romValid := rfl
@[simp] theorem State.withRom_rom (m : Memory) : (s.withRom m).rom = m := rfl
@[simp] theorem State.withRom_romLength (m : Memory) : (s.withRom m).romLength = s.romLength := rfl
@[simp] theorem State.withRom_dataOffset (m : Memory) : (s.withRom m).dataOffset = s.dataOffset := rfl
@[simp] theorem State.withRom_headerPresent (m : Memory) : (s.withRom m).headerPresent = s.headerPresent := rfl
@[simp] theorem State.withRom_prgRomSize (m : Memory) : (s.withRom m).prgRomSize = s.prgRomSize := rfl
@[simp] theorem State.withRom_chrRomSize (m : Memory) : (s.withRom m).chrRomSize = s.chrRomSize := rfl
@[simp] theorem State.withRom_flags6 (m : Memory) : (s.withRom m).flags6 = s.flags6 := rfl
@[simp] theorem State.withRom_flags7 (m : Memory) : (s.withRom m).flags7 = s.flags7 := rfl
@[simp] theorem State.withRom_prgRamSize (m : Memory) : (s.withRom m).prgRamSize = s.prgRamSize := rfl
@[simp] theorem State.withRom_flags9 (m : Memory) : (s.withRom m).flags9 = s.flags9 := rfl
@[simp] theorem State.withRom_flags10 (m : Memory) : (s.withRom m).flags10 = s.flags10 := rfl
@[simp] theorem State.withRom_mapper (m : Memory) : (s.withRom m).mapper = s.mapper := rfl
@[simp] theorem State.withRom_program (m : Memory) : (s.withRom m).program = s.program := rfl
@[simp] theorem State.withRom_response (m : Memory) : (s.withRom m).response = s.response := rfl
@[simp] theorem State.withRom_params (m : Memory) : (s.withRom m).params = s.params := rfl

/-! ### `State.withProgram` -/

@[simp] theorem State.withProgram_romValid (cs : List Command) : (s.withProgram cs).romValid = s.romValid := rfl
@[simp] theorem State.withProgram_rom (cs : List Command) : (s.withProgram cs).rom = s.rom := rfl
@[simp] theorem State.withProgram_romLength (cs : List Command) : (s.withProgram cs).romLength = s.romLength := rfl
@[simp] theorem State.withProgram_dataOffset (cs : List Command) : (s.withProgram cs).dataOffset = s.dataOffset := rfl
@[simp] theorem State.withProgram_headerPresent (cs : List Command) : (s.withProgram cs).headerPresent = s.headerPresent := rfl
@[simp] theorem State.withProgram_prgRomSize (cs : List Command) : (s.withProgram cs).prgRomSize = s.prgRomSize := rfl
@[simp] theorem State.withProgram_chrRomSize (cs : List Command) : (s.withProgram cs).chrRomSize = s.chrRomSize := rfl
@[simp] theorem State.withProgram_flags6 (cs : List Command) : (s.withProgram cs).flags6 = s.flags6 := rfl
@[simp] theorem State.withProgram_flags7 (cs : List Command) : (s.withProgram cs).flags7 = s.flags7 := rfl
@[simp] theorem State.withProgram_prgRamSize (cs : List Command) : (s.withProgram cs).prgRamSize = s.prgRamSize := rfl
@[simp] theorem State.withProgram_flags9 (cs : List Command) : (s.withProgram cs).flags9 = s.flags9 := rfl
@[simp] theorem State.withProgram_flags10 (cs : List Command) : (s.withProgram cs).flags10 = s.flags10 := rfl
@[simp] theorem State.withProgram_mapper (cs : List Command) : (s.withProgram cs).mapper = s.mapper := rfl
@[simp] theorem State.withProgram_program (cs : List Command) : (s.withProgram cs).program = cs := rfl
@[simp] theorem State.withProgram_response (cs : List Command) : (s.withProgram cs).response = s.response := rfl
@[simp] theorem State.withProgram_params (cs : List Command) : (s.withProgram cs).params = s.params := rfl

/-! ### `State.installRom` -/

@[simp] theorem State.installRom_romValid (buf : List Byte) : (s.installRom buf).romValid = true := rfl
@[simp] theorem State.installRom_rom (buf : List Byte) : (s.installRom buf).rom = Memory.ofBytes buf := rfl
@[simp] theorem State.installRom_romLength (buf : List Byte) : (s.installRom buf).romLength = buf.length := rfl
@[simp] theorem State.installRom_dataOffset (buf : List Byte) : (s.installRom buf).dataOffset = s.dataOffset := rfl
@[simp] theorem State.installRom_headerPresent (buf : List Byte) : (s.installRom buf).headerPresent = s.headerPresent := rfl
@[simp] theorem State.installRom_prgRomSize (buf : List Byte) : (s.installRom buf).prgRomSize = s.prgRomSize := rfl
@[simp] theorem State.installRom_chrRomSize (buf : List Byte) : (s.installRom buf).chrRomSize = s.chrRomSize := rfl
@[simp] theorem State.installRom_flags6 (buf : List Byte) : (s.installRom buf).flags6 = s.flags6 := rfl
@[simp] theorem State.installRom_flags7 (buf : List Byte) : (s.installRom buf).flags7 = s.flags7 := rfl
@[simp] theorem State.installRom_prgRamSize (buf : List Byte) : (s.installRom buf).prgRamSize = s.prgRamSize := rfl
@[simp] theorem State.installRom_flags9 (buf : List Byte) : (s.installRom buf).flags9 = s.flags9 := rfl
@[simp] theorem State.installRom_flags10 (buf : List Byte) : (s.installRom buf).flags10 = s.flags10 := rfl
@[simp] theorem State.installRom_mapper (buf : List Byte) : (s.installRom buf).mapper = s.mapper := rfl
@[simp] theorem State.installRom_program (buf : List Byte) : (s.installRom buf).program = s.program := rfl
@[simp] theorem State.installRom_response (buf : List Byte) : (s.installRom buf).response = s.response := rfl
@[simp] theorem State.installRom_params (buf : List Byte) : (s.installRom buf).params = s.params := rfl

/-! ### `State.writeHeader` -/

@[simp] theorem State.writeHeader_romValid (buf : List Byte) : (s.writeHeader buf).romValid = s.romValid := rfl
@[simp] theorem State.writeHeader_rom (buf : List Byte) : (s.writeHeader buf).rom = s.rom := rfl
@[simp] theorem State.writeHeader_romLength (buf : List Byte) : (s.writeHeader buf).romLength = s.romLength := rfl
@[simp] theorem State.writeHeader_dataOffset (buf : List Byte) : (s.writeHeader buf).dataOffset = 16 := rfl
@[simp] theorem State.writeHeader_headerPresent (buf : List Byte) : (s.writeHeader buf).headerPresent = true := rfl
@[simp] theorem State.writeHeader_prgRomSize (buf : List Byte) : (s.writeHeader buf).prgRomSize = byteAt buf 4 := rfl
@[simp] theorem State.writeHeader_chrRomSize (buf : List Byte) : (s.writeHeader buf).chrRomSize = byteAt buf 5 := rfl
@[simp] theorem State.writeHeader_flags6 (buf : List Byte) : (s.writeHeader buf).flags6 = byteAt buf 6 := rfl
@[simp] theorem State.writeHeader_flags7 (buf : List Byte) : (s.writeHeader buf).flags7 = byteAt buf 7 := rfl
@[simp] theorem State.writeHeader_prgRamSize (buf : List Byte) : (s.writeHeader buf).prgRamSize = byteAt buf 8 := rfl
@[simp] theorem State.writeHeader_flags9 (buf : List Byte) : (s.writeHeader buf).flags9 = byteAt buf 9 := rfl
@[simp] theorem State.writeHeader_flags10 (buf : List Byte) : (s.writeHeader buf).flags10 = byteAt buf 10 := rfl
@[simp] theorem State.writeHeader_mapper (buf : List Byte) : (s.writeHeader buf).mapper = mapperOf (byteAt buf 6) (byteAt buf 7) := rfl
@[simp] theorem State.writeHeader_program (buf : List Byte) : (s.writeHeader buf).program = s.program := rfl
@[simp] theorem State.writeHeader_response (buf : List Byte) : (s.writeHeader buf).response = s.response := rfl
@[simp] theorem State.writeHeader_params (buf : List Byte) : (s.writeHeader buf).params = s.params := rfl

/-! ### `State.clearHeader` -/

@[simp] theorem State.clearHeader_romValid : s.clearHeader.romValid = s.romValid := rfl
@[simp] theorem State.clearHeader_rom : s.clearHeader.rom = s.rom := rfl
@[simp] theorem State.clearHeader_romLength : s.clearHeader.romLength = s.romLength := rfl
@[simp] theorem State.clearHeader_dataOffset : s.clearHeader.dataOffset = 0 := rfl
@[simp] theorem State.clearHeader_headerPresent : s.clearHeader.headerPresent = false := rfl
@[simp] theorem State.clearHeader_prgRomSize : s.clearHeader.prgRomSize = 0 := rfl
@[simp] theorem State.clearHeader_chrRomSize : s.clearHeader.chrRomSize = 0 := rfl
@[simp] theorem State.clearHeader_flags6 : s.clearHeader.flags6 = 0 := rfl
@[simp] theorem State.clearHeader_flags7 : s.clearHeader.flags7 = 0 := rfl
@[simp] theorem State.clearHeader_prgRamSize : s.clearHeader.prgRamSize = 0 := rfl
@[simp] theorem State.clearHeader_flags9 : s.clearHeader.flags9 = 0 := rfl
@[simp] theorem State.clearHeader_flags10 : s.clearHeader.flags10 = 0 := rfl
@[simp] theorem State.clearHeader_mapper : s.clearHeader.mapper = 0 := rfl
@[simp] theorem State.clearHeader_program : s.clearHeader.program = s.program := rfl
@[simp] theorem State.clearHeader_response : s.clearHeader.response = s.response := rfl
@[simp] theorem State.clearHeader_params : s.clearHeader.params = s.params := rfl

/-! ### `State.resetWith` -/

@[simp] theorem State.resetWith_romValid (p : Params) : (State.resetWith p).romValid = false := rfl
@[simp] theorem State.resetWith_rom (p : Params) : (State.resetWith p).rom = [] := rfl
@[simp] theorem State.resetWith_romLength (p : Params) : (State.resetWith p).romLength = 0 := rfl
@[simp] theorem State.resetWith_dataOffset (p : Params) : (State.resetWith p).dataOffset = 0 := rfl
@[simp] theorem State.resetWith_headerPresent (p : Params) : (State.resetWith p).headerPresent = false := rfl
@[simp] theorem State.resetWith_prgRomSize (p : Params) : (State.resetWith p).prgRomSize = 0 := rfl
@[simp] theorem State.resetWith_chrRomSize (p : Params) : (State.resetWith p).chrRomSize = 0 := rfl
@[simp] theorem State.resetWith_flags6 (p : Params) : (State.resetWith p).flags6 = 0 := rfl
@[simp] theorem State.resetWith_flags7 (p : Params) : (State.resetWith p).flags7 = 0 := rfl
@[simp] theorem State.resetWith_prgRamSize (p : Params) : (State.resetWith p).prgRamSize = 0 := rfl
@[simp] theorem State.resetWith_flags9 (p : Params) : (State.resetWith p).flags9 = 0 := rfl
@[simp] theorem State.resetWith_flags10 (p : Params) : (State.resetWith p).flags10 = 0 := rfl
@[simp] theorem State.resetWith_mapper (p : Params) : (State.resetWith p).mapper = 0 := rfl
@[simp] theorem State.resetWith_program (p : Params) : (State.resetWith p).program = [] := rfl
@[simp] theorem State.resetWith_response (p : Params) : (State.resetWith p).response = none := rfl
@[simp] theorem State.resetWith_params (p : Params) : (State.resetWith p).params = p := rfl

/-! ### Updates in a row -/

@[simp] theorem State.withResponse_withResponse (r r' : Response) :
    (s.withResponse r).withResponse r' = s.withResponse r' := rfl
@[simp] theorem State.withProgram_withProgram (cs cs' : List Command) :
    (s.withProgram cs).withProgram cs' = s.withProgram cs' := rfl
@[simp] theorem State.withRom_withRom (m m' : Memory) :
    (s.withRom m).withRom m' = s.withRom m' := rfl
@[simp] theorem State.withRom_self : s.withRom s.rom = s := rfl
@[simp] theorem State.withProgram_self : s.withProgram s.program = s := rfl

end Sys2Proof.Machine
end

