-- ==== Sys2Proof/Laws/Memory.lean ====
section
/-! SUPPORT. What the ROM memory operations do: one lemma for each operation and each way a
later proof looks at memory (a byte read, the listed addresses, the canonical form). -/

namespace Sys2Proof.Machine

/-- The addresses a memory lists. -/
abbrev Memory.addrs (m : Memory) : List Nat := m.map Prod.fst

/-! ### Reading -/

@[simp] theorem Memory.read_nil (a : Nat) : Memory.read [] a = none := rfl

theorem Memory.read_isSome_iff (m : Memory) (a : Nat) :
    (Memory.read m a).isSome = true ↔ a ∈ Memory.addrs m := by
  induction m with
  | nil => simp
  | cons cell rest ih =>
    obtain ⟨k, b⟩ := cell
    by_cases h : k = a
    · simp [Memory.read, h]
    · rw [Memory.read, if_neg h, ih]
      simp [Ne.symm h]

theorem Memory.read_eq_none_iff (m : Memory) (a : Nat) :
    Memory.read m a = none ↔ a ∉ Memory.addrs m := by
  rw [← Memory.read_isSome_iff, Bool.not_eq_true, Option.isSome_eq_false_iff, Option.isNone_iff_eq_none]

/-! ### Overwriting one byte -/

@[simp] theorem Memory.addrs_overwrite (m : Memory) (a : Nat) (v : Byte) :
    Memory.addrs (Memory.overwrite m a v) = Memory.addrs m := by
  simp only [Memory.addrs, Memory.overwrite, List.map_map]
  refine List.map_congr_left fun cell _ => ?_
  by_cases h : cell.1 = a <;> simp [h]

theorem Memory.read_overwrite (m : Memory) (a x : Nat) (v : Byte) :
    Memory.read (Memory.overwrite m a v) x =
      if x = a then (Memory.read m x).map (fun _ => v) else Memory.read m x := by
  induction m with
  | nil => simp [Memory.overwrite]
  | cons cell rest ih =>
    obtain ⟨k, b⟩ := cell
    simp only [Memory.overwrite, List.map_cons] at ih ⊢
    by_cases hk : k = a <;> by_cases hx : k = x <;> simp_all [Memory.read]

/-! ### Writing a span -/

@[simp] theorem Memory.addrs_writeSpan (m : Memory) (a : Nat) (vs : List Byte) :
    Memory.addrs (Memory.writeSpan m a vs) = Memory.addrs m := by
  induction vs generalizing m a with
  | nil => rfl
  | cons v vs ih => rw [Memory.writeSpan, ih, Memory.addrs_overwrite]

theorem Memory.read_writeSpan_outside (m : Memory) (a x : Nat) (vs : List Byte)
    (h : x < a ∨ a + vs.length ≤ x) :
    Memory.read (Memory.writeSpan m a vs) x = Memory.read m x := by
  induction vs generalizing m a with
  | nil => rfl
  | cons v vs ih =>
    simp only [List.length_cons] at h
    rw [Memory.writeSpan, ih _ _ (by omega), Memory.read_overwrite, if_neg (by omega)]

theorem Memory.read_writeSpan_inside (m : Memory) (a k : Nat) (vs : List Byte)
    (hk : k < vs.length) :
    Memory.read (Memory.writeSpan m a vs) (a + k) =
      (Memory.read m (a + k)).map (fun _ => vs[k]) := by
  induction vs generalizing m a k with
  | nil => simp at hk
  | cons v vs ih =>
    cases k with
    | zero =>
      rw [Memory.writeSpan, Memory.read_writeSpan_outside _ _ _ _ (by omega),
        Memory.read_overwrite]
      simp
    | succ k =>
      have hk' : k < vs.length := by simpa using hk
      have := ih (Memory.overwrite m a v) (a + 1) k hk'
      rw [Memory.writeSpan, show a + (k + 1) = a + 1 + k by omega, this,
        Memory.read_overwrite, if_neg (by omega)]
      simp

/-! ### Spans read -/

theorem Memory.hasSpan_iff (m : Memory) (a n : Nat) :
    Memory.hasSpan m a n = true ↔ ∀ k < n, (Memory.read m (a + k)).isSome = true := by
  simp [Memory.hasSpan, Memory.has, List.all_eq_true]

/-- A span read answers exactly the bytes read one by one. -/
theorem Memory.readSpan_eq_some_iff (m : Memory) (a n : Nat) (bs : List Byte) :
    Memory.readSpan m a n = some bs ↔
      bs.length = n ∧ ∀ k < n, Memory.read m (a + k) = bs[k]? := by
  induction n generalizing a bs with
  | zero =>
    simp only [Memory.readSpan, Option.some.injEq, List.length_eq_zero_iff, Nat.not_lt_zero,
      false_implies, implies_true, and_true]
    exact eq_comm
  | succ n ih =>
    constructor
    · intro h
      rw [Memory.readSpan] at h
      split at h
      · rename_i b bs' hb hbs
        cases h
        obtain ⟨hlen, hread⟩ := (ih _ _).mp hbs
        refine ⟨by simp [hlen], fun k hk => ?_⟩
        cases k with
        | zero => simpa using hb
        | succ k =>
          have := hread k (by omega)
          rw [show a + (k + 1) = a + 1 + k by omega, this]
          simp
      · cases h
    · rintro ⟨hlen, hread⟩
      cases bs with
      | nil => simp at hlen
      | cons b bs =>
        have h0 : Memory.read m a = some b := by simpa using hread 0 (by omega)
        have hrest : Memory.readSpan m (a + 1) n = some bs := by
          refine (ih _ _).mpr ⟨by simpa using hlen, fun k hk => ?_⟩
          have := hread (k + 1) (by omega)
          rw [show a + 1 + k = a + (k + 1) by omega, this]
          simp
        rw [Memory.readSpan, h0, hrest]

/-- A span can be read whenever each of its addresses exists. -/
theorem Memory.exists_readSpan (m : Memory) (a n : Nat)
    (h : ∀ k < n, (Memory.read m (a + k)).isSome = true) :
    ∃ bs, Memory.readSpan m a n = some bs := by
  induction n generalizing a with
  | zero => exact ⟨[], rfl⟩
  | succ n ih =>
    obtain ⟨b, hb⟩ := Option.isSome_iff_exists.mp (h 0 (by omega))
    obtain ⟨bs, hbs⟩ := ih (a + 1) fun k hk => by
      have := h (k + 1) (by omega)
      rwa [show a + (k + 1) = a + 1 + k by omega] at this
    exact ⟨b :: bs, by rw [Memory.readSpan, show Memory.read m a = some b by simpa using hb, hbs]⟩

/-- A span apart from the one written reads as before. -/
theorem Memory.readSpan_writeSpan_apart (m : Memory) (a b n : Nat) (vs : List Byte)
    (h : a + vs.length ≤ b ∨ b + n ≤ a) :
    Memory.readSpan (Memory.writeSpan m a vs) b n = Memory.readSpan m b n := by
  refine Option.ext fun bs => ?_
  rw [Memory.readSpan_eq_some_iff, Memory.readSpan_eq_some_iff]
  refine and_congr_right fun _ => forall_congr' fun k => imp_congr_right fun hk => ?_
  rw [Memory.read_writeSpan_outside _ _ _ _ (by omega)]

/-! ### The memory PARSE installs -/

theorem Memory.addrs_ofBytesFrom (a : Nat) (bs : List Byte) :
    Memory.addrs (Memory.ofBytesFrom a bs) = List.range' a bs.length := by
  induction bs generalizing a with
  | nil => rfl
  | cons b bs ih => simpa [Memory.ofBytesFrom, List.range'_succ] using ih (a + 1)

@[simp] theorem Memory.addrs_ofBytes (bs : List Byte) :
    Memory.addrs (Memory.ofBytes bs) = List.range bs.length := by
  rw [Memory.ofBytes, Memory.addrs_ofBytesFrom, List.range_eq_range']

theorem Memory.read_ofBytesFrom (a x : Nat) (bs : List Byte) :
    Memory.read (Memory.ofBytesFrom a bs) x = if x < a then none else bs[x - a]? := by
  induction bs generalizing a with
  | nil => simp [Memory.ofBytesFrom]
  | cons b bs ih =>
    rw [Memory.ofBytesFrom, Memory.read, ih]
    by_cases h : a = x
    · simp [h]
    · by_cases hx : x < a
      · simp [h, hx, Nat.lt_succ_of_lt hx]
      · rw [if_neg h, if_neg (by omega), if_neg hx, show x - a = (x - (a + 1)) + 1 by omega]
        simp

@[simp] theorem Memory.read_ofBytes (bs : List Byte) (a : Nat) :
    Memory.read (Memory.ofBytes bs) a = bs[a]? := by
  simp [Memory.ofBytes, Memory.read_ofBytesFrom]

/-- The bytes of an installed buffer are the buffer. -/
theorem Memory.bytes_ofBytesFrom (a : Nat) (bs : List Byte) :
    (Memory.ofBytesFrom a bs).map Prod.snd = bs := by
  induction bs generalizing a with
  | nil => rfl
  | cons b bs ih => simp [Memory.ofBytesFrom, ih]

/-! ### The canonical form -/

theorem Memory.rising_iff_pairwise (addrs : List Nat) :
    Memory.rising addrs = true ↔ addrs.Pairwise (· < ·) := by
  induction addrs with
  | nil => simp [Memory.rising]
  | cons a rest ih => simp [Memory.rising, ih]

theorem Memory.wf_iff_of_addrs_eq {m m' : Memory} (h : Memory.addrs m = Memory.addrs m') :
    Memory.wf m = Memory.wf m' := by
  rw [Memory.wf, Memory.wf, show m.map Prod.fst = m'.map Prod.fst from h]

theorem Memory.wf_of_addrs_range {m : Memory} {n : Nat} (h : Memory.addrs m = List.range n) :
    Memory.wf m = true := by
  rw [Memory.wf, show m.map Prod.fst = List.range n from h, Memory.rising_iff_pairwise]
  exact List.pairwise_lt_range

/-- Overwriting a byte keeps the canonical form. -/
@[simp] theorem Memory.wf_overwrite (m : Memory) (a : Nat) (v : Byte) :
    Memory.wf (Memory.overwrite m a v) = Memory.wf m :=
  Memory.wf_iff_of_addrs_eq (Memory.addrs_overwrite m a v)

/-- Writing a span keeps the canonical form. -/
@[simp] theorem Memory.wf_writeSpan (m : Memory) (a : Nat) (vs : List Byte) :
    Memory.wf (Memory.writeSpan m a vs) = Memory.wf m :=
  Memory.wf_iff_of_addrs_eq (Memory.addrs_writeSpan m a vs)

/-- An installed buffer is in canonical form. -/
@[simp] theorem Memory.wf_ofBytes (bs : List Byte) : Memory.wf (Memory.ofBytes bs) = true :=
  Memory.wf_of_addrs_range (Memory.addrs_ofBytes bs)

/-- The reset memory is in canonical form. -/
theorem Memory.wf_reset : Memory.wf State.reset.rom = true := rfl

/-- Two canonical memories that read alike everywhere are the same data. -/
theorem Memory.ext_of_wf {m m' : Memory} (hw : Memory.wf m = true) (hw' : Memory.wf m' = true)
    (h : ∀ a, Memory.read m a = Memory.read m' a) : m = m' := by
  rw [Memory.wf, Memory.rising_iff_pairwise] at hw hw'
  induction m generalizing m' with
  | nil =>
    cases m' with
    | nil => rfl
    | cons cell rest => simpa [Memory.read] using h cell.1
  | cons cell rest ih =>
    obtain ⟨k, b⟩ := cell
    cases m' with
    | nil => simpa [Memory.read] using h k
    | cons cell' rest' =>
      obtain ⟨k', b'⟩ := cell'
      simp only [List.map_cons, List.pairwise_cons] at hw hw'
      have mem_of (m₁ m₂ : Memory) (x : Nat) (hx : Memory.read m₁ x = Memory.read m₂ x)
          (hm : x ∈ Memory.addrs m₁) : x ∈ Memory.addrs m₂ := by
        rw [← Memory.read_isSome_iff, ← hx, Memory.read_isSome_iff]; exact hm
      have hkk : k = k' := by
        have h1 := mem_of _ _ k (h k) (by simp)
        have h2 := mem_of _ _ k' (h k').symm (by simp)
        simp only [Memory.addrs, List.map_cons, List.mem_cons] at h1 h2
        rcases h1 with h1 | h1
        · exact h1
        · rcases h2 with h2 | h2
          · exact h2.symm
          · have := hw'.1 k h1; have := hw.1 k' h2; omega
      subst hkk
      have hb : b = b' := by simpa [Memory.read] using h k
      subst hb
      congr 1
      refine ih hw.2 hw'.2 fun a => ?_
      by_cases ha : k = a
      · subst ha
        have h1 : k ∉ Memory.addrs rest := fun hm => absurd (hw.1 k hm) (by omega)
        have h2 : k ∉ Memory.addrs rest' := fun hm => absurd (hw'.1 k hm) (by omega)
        rw [(Memory.read_eq_none_iff _ _).mpr h1, (Memory.read_eq_none_iff _ _).mpr h2]
      · simpa [Memory.read, ha] using h a

/-- A memory whose addresses are 0..L-1 has a byte exactly below L. -/
theorem Memory.read_isSome_of_range {m : Memory} {n : Nat} (h : Memory.addrs m = List.range n)
    (a : Nat) : (Memory.read m a).isSome = true ↔ a < n := by
  rw [Memory.read_isSome_iff, h, List.mem_range]

end Sys2Proof.Machine
end

