-- ==== Sys2Proof/Laws/Exec.lean ====
section
/-! SUPPORT. What each meaning can do, said once: later proofs cite these and unfold no meaning. -/

namespace Sys2Proof.Machine

variable {s t : State}

/-! ### The shared endings -/

@[simp] theorem finish_eq_next (o : Output) :
    finish o s = .next t ↔ t = s.withResponse (.ok o) := by
  rw [finish, Host.Outcome.next.injEq, eq_comm]

@[simp] theorem raise_eq_next (e : ErrorCause) :
    raise e s = .next t ↔ t = s.withResponse (.err e) := by
  rw [raise, Host.Outcome.next.injEq, eq_comm]

/-! ### Register numbers -/

theorem regOfNumber_eq_none_iff (r : Nat) : regOfNumber r = none ↔ 0xB < r := by
  constructor
  · intro h
    by_contra hr
    have : r ≤ 11 := by omega
    interval_cases r <;> simp [regOfNumber] at h
  · intro h
    rw [regOfNumber] <;> omega

@[simp] theorem regOfNumber_regNumber (g : Reg) : regOfNumber (regNumber g) = some g := by
  cases g <;> rfl

theorem regNumber_of_regOfNumber {r : Nat} {g : Reg} (h : regOfNumber r = some g) :
    regNumber g = r := by
  have : r ≤ 11 := by
    by_contra hr
    rw [(regOfNumber_eq_none_iff r).mpr (by omega)] at h
    cases h
  interval_cases r <;> (cases h; rfl)

theorem regNeedsRom_iff (g : Reg) : regNeedsRom g = true ↔ regNumber g ≠ 0 := by
  cases g <;> simp [regNeedsRom, regNumber]

theorem regNeedsHeader_iff (g : Reg) : regNeedsHeader g = true ↔ 4 ≤ regNumber g := by
  cases g <;> simp [regNeedsHeader, regNumber]

/-! ### The tile offset under updates that do not touch DATA_OFFSET -/

@[simp] theorem tileOff_withResponse (r : Response) (n : Nat) :
    tileOff (s.withResponse r) n = tileOff s n := rfl
@[simp] theorem tileOff_withRom (m : Memory) (n : Nat) : tileOff (s.withRom m) n = tileOff s n := rfl
@[simp] theorem tileOff_withProgram (cs : List Command) (n : Nat) :
    tileOff (s.withProgram cs) n = tileOff s n := rfl

/-- Different tiles have spans apart (R160). -/
theorem tileOff_apart (s : State) {m n : Nat} (h : m ≠ n) :
    tileOff s m + 16 ≤ tileOff s n ∨ tileOff s n + 16 ≤ tileOff s m := by
  simp only [tileOff]; omega

/-! ### PARSE's magic test -/

/-- HasMagic says that the first four bytes are 4E 45 53 1A. -/
theorem hasMagic_iff (buf : List Byte) :
    hasMagic buf = true ↔ buf.take 4 = [0x4E, 0x45, 0x53, 0x1A] := by
  match buf with
  | [] => simp [hasMagic]
  | [_] => simp [hasMagic]
  | [_, _] => simp [hasMagic]
  | [_, _, _] => simp [hasMagic]
  | _ :: _ :: _ :: _ :: _ => simp [hasMagic, and_assoc]

/-! ### The meanings where they succeed -/

theorem execParse_header {buf : List Byte} (hm : hasMagic buf = true) (hl : 16 ≤ buf.length) :
    execParse buf s = .next (((s.installRom buf).writeHeader buf).withResponse (.ok .none)) := by
  simp [execParse, hm, Nat.not_lt.mpr hl, finish]

theorem execParse_headerless {buf : List Byte} (hm : hasMagic buf = false) :
    execParse buf s = .next (((s.installRom buf).clearHeader).withResponse (.ok .none)) := by
  simp [execParse, hm, finish]

theorem execDecode_next {enc : List Byte} (hl : enc.length = 16) :
    execDecode enc s = .next (s.withResponse (.ok (.dataOut (decodeTile enc)))) := by
  simp [execDecode, hl, finish]

theorem execEncode_next {flat : List Nat} (hl : flat.length = 64) :
    execEncode flat s =
      .next (s.withResponse (.ok (.dataOut ((encodeTile flat).map BitVec.toNat)))) := by
  simp [execEncode, hl, finish]

theorem execReadTile_of_span {n : Nat} {enc : List Byte} (hv : s.romValid = true)
    (hr : tileOff s n + 16 ≤ s.romLength)
    (hs : Memory.readSpan s.rom (tileOff s n) 16 = some enc) :
    execReadTile n s = .next (s.withResponse (.ok (.dataOut (decodeTile enc)))) := by
  simp [execReadTile, hv, inRange, hr, hs, finish]

/-! ### The meanings, case by case -/

theorem execParse_cases {buf : List Byte} (h : execParse buf s = .next t) :
    (hasMagic buf = true ∧ buf.length < 16 ∧ t = s.withResponse (.err .malformedHeader)) ∨
    (hasMagic buf = true ∧ 16 ≤ buf.length ∧
      t = ((s.installRom buf).writeHeader buf).withResponse (.ok .none)) ∨
    (hasMagic buf = false ∧
      t = ((s.installRom buf).clearHeader).withResponse (.ok .none)) := by
  rw [execParse] at h
  split at h
  · rename_i hm
    split at h
    · rename_i hl; exact .inl ⟨hm, hl, (raise_eq_next _).mp h⟩
    · rename_i hl; exact .inr (.inl ⟨hm, by omega, (finish_eq_next _).mp h⟩)
  · rename_i hm
    exact .inr (.inr ⟨by simpa using hm, (finish_eq_next _).mp h⟩)

theorem execDecode_cases {enc : List Byte} (h : execDecode enc s = .next t) :
    (enc.length ≠ 16 ∧ t = s.withResponse (.err .invalidInputSize)) ∨
    (enc.length = 16 ∧ t = s.withResponse (.ok (.dataOut (decodeTile enc)))) := by
  rw [execDecode] at h
  split at h
  · rename_i hl; exact .inl ⟨hl, (raise_eq_next _).mp h⟩
  · rename_i hl; exact .inr ⟨by simpa using hl, (finish_eq_next _).mp h⟩

theorem execEncode_cases {flat : List Nat} (h : execEncode flat s = .next t) :
    (flat.length ≠ 64 ∧ t = s.withResponse (.err .invalidInputSize)) ∨
    (flat.length = 64 ∧
      t = s.withResponse (.ok (.dataOut ((encodeTile flat).map BitVec.toNat)))) := by
  rw [execEncode] at h
  split at h
  · rename_i hl; exact .inl ⟨hl, (raise_eq_next _).mp h⟩
  · rename_i hl; exact .inr ⟨by simpa using hl, (finish_eq_next _).mp h⟩

theorem execTileOffset_cases {n : Nat} (h : execTileOffset n s = .next t) :
    (s.romValid = false ∧ t = s.withResponse (.err .noRom)) ∨
    (s.romValid = true ∧ t = s.withResponse (.ok (.result (tileOff s n)))) := by
  rw [execTileOffset] at h
  split at h
  · rename_i hv; exact .inl ⟨by simpa using hv, (raise_eq_next _).mp h⟩
  · rename_i hv; exact .inr ⟨by simpa using hv, (finish_eq_next _).mp h⟩

theorem execReadTile_cases {n : Nat} (h : execReadTile n s = .next t) :
    (s.romValid = false ∧ t = s.withResponse (.err .noRom)) ∨
    (s.romValid = true ∧ s.romLength < tileOff s n + 16 ∧
      t = s.withResponse (.err .indexOutOfRange)) ∨
    (s.romValid = true ∧ tileOff s n + 16 ≤ s.romLength ∧
      ∃ enc, Memory.readSpan s.rom (tileOff s n) 16 = some enc ∧
        t = s.withResponse (.ok (.dataOut (decodeTile enc)))) := by
  rw [execReadTile] at h
  split at h
  · rename_i hv; exact .inl ⟨by simpa using hv, (raise_eq_next _).mp h⟩
  · rename_i hv
    have hv : s.romValid = true := by simpa using hv
    split at h
    · rename_i hr
      exact .inr (.inl ⟨hv, by simpa [inRange] using hr, (raise_eq_next _).mp h⟩)
    · rename_i hr
      split at h
      · rename_i enc henc
        exact .inr (.inr ⟨hv, by simpa [inRange] using hr, enc, henc, (finish_eq_next _).mp h⟩)
      · cases h

theorem execWriteTile_cases {n : Nat} {flat : List Nat} (h : execWriteTile n flat s = .next t) :
    (s.romValid = false ∧ t = s.withResponse (.err .noRom)) ∨
    (s.romValid = true ∧ flat.length ≠ 64 ∧ t = s.withResponse (.err .invalidInputSize)) ∨
    (s.romValid = true ∧ flat.length = 64 ∧ s.romLength < tileOff s n + 16 ∧
      t = s.withResponse (.err .indexOutOfRange)) ∨
    (s.romValid = true ∧ flat.length = 64 ∧ tileOff s n + 16 ≤ s.romLength ∧
      Memory.hasSpan s.rom (tileOff s n) 16 = true ∧
      ∃ m, m = Memory.writeSpan s.rom (tileOff s n) (encodeTile flat) ∧
        t = (s.withRom m).withResponse (.ok .none)) := by
  rw [execWriteTile] at h
  split at h
  · rename_i hv; exact .inl ⟨by simpa using hv, (raise_eq_next _).mp h⟩
  · rename_i hv
    have hv : s.romValid = true := by simpa using hv
    split at h
    · rename_i hl; exact .inr (.inl ⟨hv, hl, (raise_eq_next _).mp h⟩)
    · rename_i hl
      have hl : flat.length = 64 := by simpa using hl
      split at h
      · rename_i hr
        exact .inr (.inr (.inl ⟨hv, hl, by simpa [inRange] using hr, (raise_eq_next _).mp h⟩))
      · rename_i hr
        split at h
        · rename_i hs
          exact .inr (.inr (.inr
            ⟨hv, hl, by simpa [inRange] using hr, hs, _, rfl, (finish_eq_next _).mp h⟩))
        · cases h

theorem execReadReg_cases {r : Nat} (h : execReadReg r s = .next t) :
    (0xB < r ∧ t = s.withResponse (.err .illegalCommand)) ∨
    (r ≤ 0xB ∧ r ≠ 0 ∧ s.romValid = false ∧ t = s.withResponse (.err .noRom)) ∨
    (r ≤ 0xB ∧ 4 ≤ r ∧ s.romValid = true ∧ s.headerPresent = false ∧
      t = s.withResponse (.err .noHeader)) ∨
    (∃ g, regOfNumber r = some g ∧ (r = 0 ∨ s.romValid = true) ∧
      (r < 4 ∨ s.headerPresent = true) ∧ t = s.withResponse (.ok (.result (regValue g s)))) := by
  rw [execReadReg] at h
  split at h
  · rename_i hg
    exact .inl ⟨(regOfNumber_eq_none_iff r).mp hg, (raise_eq_next _).mp h⟩
  · rename_i g hg
    have hr : r ≤ 0xB := by
      by_contra hc
      rw [(regOfNumber_eq_none_iff r).mpr (by omega)] at hg
      cases hg
    have hn := regNumber_of_regOfNumber hg
    have hrom := regNeedsRom_iff g
    have hhdr := regNeedsHeader_iff g
    rw [hn] at hrom hhdr
    split at h
    · rename_i hc
      simp only [Bool.and_eq_true, Bool.not_eq_true'] at hc
      exact .inr (.inl ⟨hr, hrom.mp hc.1, hc.2, (raise_eq_next _).mp h⟩)
    · rename_i hc
      have hc' : r = 0 ∨ s.romValid = true := by
        by_contra hcon
        simp only [not_or, Bool.not_eq_true] at hcon
        exact hc (by simp [hrom.mpr hcon.1, hcon.2])
      split at h
      · rename_i hd
        simp only [Bool.and_eq_true, Bool.not_eq_true'] at hd
        have h4 := hhdr.mp hd.1
        exact .inr (.inr (.inl ⟨hr, h4, hc'.resolve_left (by omega), hd.2,
          (raise_eq_next _).mp h⟩))
      · rename_i hd
        refine .inr (.inr (.inr ⟨g, hg, hc', ?_, (finish_eq_next _).mp h⟩))
        by_contra hcon
        simp only [not_or, Nat.not_lt, Bool.not_eq_true] at hcon
        exact hd (by simp [hhdr.mpr hcon.1, hcon.2])

theorem execReadRom_cases {a : Nat} (h : execReadRom a s = .next t) :
    (s.romValid = false ∧ t = s.withResponse (.err .noRom)) ∨
    (s.romValid = true ∧ s.romLength ≤ a ∧ t = s.withResponse (.err .indexOutOfRange)) ∨
    (s.romValid = true ∧ a < s.romLength ∧
      ∃ b, Memory.read s.rom a = some b ∧ t = s.withResponse (.ok (.result b.toNat))) := by
  rw [execReadRom] at h
  split at h
  · rename_i hv; exact .inl ⟨by simpa using hv, (raise_eq_next _).mp h⟩
  · rename_i hv
    have hv : s.romValid = true := by simpa using hv
    split at h
    · rename_i ha; exact .inr (.inl ⟨hv, ha, (raise_eq_next _).mp h⟩)
    · rename_i ha
      split at h
      · rename_i b hb
        exact .inr (.inr ⟨hv, by omega, b, hb, (finish_eq_next _).mp h⟩)
      · cases h

/-- Every command that answers a next state does one of these: it reports an error and changes
nothing, it returns an output and changes nothing, it is a WRITE_TILE that wrote one tile span, or
it is a PARSE that replaced the ROM. -/
theorem exec_cases {i : Instr} (h : exec i s = .next t) :
    (∃ e, mayRaise i.opcode e = true ∧ t = s.withResponse (.err e)) ∨
    (∃ o, t = s.withResponse (.ok o)) ∨
    (∃ n flat, i = .writeTile n flat ∧ s.romValid = true ∧ flat.length = 64 ∧
      tileOff s n + 16 ≤ s.romLength ∧
      ∃ m, m = Memory.writeSpan s.rom (tileOff s n) (encodeTile flat) ∧
        t = (s.withRom m).withResponse (.ok .none)) ∨
    (∃ buf, i = .parse buf ∧ hasMagic buf = true ∧ 16 ≤ buf.length ∧
      t = ((s.installRom buf).writeHeader buf).withResponse (.ok .none)) ∨
    (∃ buf, i = .parse buf ∧ hasMagic buf = false ∧
      t = ((s.installRom buf).clearHeader).withResponse (.ok .none)) := by
  cases i with
  | parse buf =>
    rcases execParse_cases h with ⟨-, -, ht⟩ | ⟨hm, hl, ht⟩ | ⟨hm, ht⟩
    · exact .inl ⟨_, rfl, ht⟩
    · exact .inr (.inr (.inr (.inl ⟨buf, rfl, hm, hl, ht⟩)))
    · exact .inr (.inr (.inr (.inr ⟨buf, rfl, hm, ht⟩)))
  | decode enc =>
    rcases execDecode_cases h with ⟨-, ht⟩ | ⟨-, ht⟩
    · exact .inl ⟨_, rfl, ht⟩
    · exact .inr (.inl ⟨_, ht⟩)
  | encode flat =>
    rcases execEncode_cases h with ⟨-, ht⟩ | ⟨-, ht⟩
    · exact .inl ⟨_, rfl, ht⟩
    · exact .inr (.inl ⟨_, ht⟩)
  | tileOffset n =>
    rcases execTileOffset_cases h with ⟨-, ht⟩ | ⟨-, ht⟩
    · exact .inl ⟨_, rfl, ht⟩
    · exact .inr (.inl ⟨_, ht⟩)
  | readTile n =>
    rcases execReadTile_cases h with ⟨-, ht⟩ | ⟨-, -, ht⟩ | ⟨-, -, _, -, ht⟩
    · exact .inl ⟨_, rfl, ht⟩
    · exact .inl ⟨_, rfl, ht⟩
    · exact .inr (.inl ⟨_, ht⟩)
  | writeTile n flat =>
    rcases execWriteTile_cases h with ⟨-, ht⟩ | ⟨-, -, ht⟩ | ⟨-, -, -, ht⟩ |
      ⟨hv, hl, hr, -, m, hm, ht⟩
    · exact .inl ⟨_, rfl, ht⟩
    · exact .inl ⟨_, rfl, ht⟩
    · exact .inl ⟨_, rfl, ht⟩
    · exact .inr (.inr (.inl ⟨n, flat, rfl, hv, hl, hr, m, hm, ht⟩))
  | readReg r =>
    rcases execReadReg_cases h with ⟨-, ht⟩ | ⟨-, -, -, ht⟩ | ⟨-, -, -, -, ht⟩ | ⟨_, -, -, -, ht⟩
    · exact .inl ⟨_, rfl, ht⟩
    · exact .inl ⟨_, rfl, ht⟩
    · exact .inl ⟨_, rfl, ht⟩
    · exact .inr (.inl ⟨_, ht⟩)
  | readRom a =>
    rcases execReadRom_cases h with ⟨-, ht⟩ | ⟨-, -, ht⟩ | ⟨-, -, _, -, ht⟩
    · exact .inl ⟨_, rfl, ht⟩
    · exact .inl ⟨_, rfl, ht⟩
    · exact .inr (.inl ⟨_, ht⟩)

/-! ### R107's closed forms -/

theorem closedPixel_eq (b0 b1 : Byte) (x : Nat) :
    closedPixel b0 b1 x = bit b0 (7 - x) + 2 * bit b1 (7 - x) := by
  simp [closedPixel, bit_eq]

theorem plane0Byte_toNat (flat : List Nat) (y : Nat) :
    (plane0Byte flat y).toNat = closedPlane0 flat y := by
  rw [byte_toNat_eq_sum, closedPlane0]
  exact Finset.sum_congr rfl fun x hx => by rw [bit_plane0Byte _ _ _ (by simpa using hx)]

theorem plane1Byte_toNat (flat : List Nat) (y : Nat) :
    (plane1Byte flat y).toNat = closedPlane1 flat y := by
  rw [byte_toNat_eq_sum, closedPlane1]
  exact Finset.sum_congr rfl fun x hx => by rw [bit_plane1Byte _ _ _ (by simpa using hx)]

/-! ### Refusals -/

/-- No command is refused once it runs: refusals come from the command port alone. -/
theorem exec_ne_refused (i : Instr) (s : State) (r : Refusal) : exec i s ≠ .refused r := by
  cases i <;>
    simp only [exec, execParse, execDecode, execEncode, execTileOffset, execReadTile,
      execWriteTile, execReadReg, execReadRom, raise, finish] <;>
    repeat' split
  all_goals simp

end Sys2Proof.Machine
end

