-- ==== Sys2Proof/Laws/Invariant.lean ====
section
/-! SUPPORT. The invariant under each named update of State, and what memory holds in a state that
keeps it. -/

namespace Sys2Proof.Machine

variable {s : State}

/-! ### Updates that keep it -/

theorem State.Inv.withResponse (h : s.Inv) (r : Response) : (s.withResponse r).Inv :=
  ⟨h.1, h.2, h.3, h.4, h.5, h.6, h.7⟩

theorem State.Inv.withoutResponse (h : s.Inv) : s.withoutResponse.Inv :=
  ⟨h.1, h.2, h.3, h.4, h.5, h.6, h.7⟩

theorem State.Inv.withProgram (h : s.Inv) (cs : List Command) : (s.withProgram cs).Inv :=
  ⟨h.1, h.2, h.3, h.4, h.5, h.6, h.7⟩

/-- A memory of the same addresses that keeps the header bytes of a headered ROM. -/
theorem State.Inv.withRom {m : Memory} (h : s.Inv)
    (haddr : Memory.addrs m = Memory.addrs s.rom)
    (hread : s.headerPresent = true → ∀ a < 16, Memory.read m a = Memory.read s.rom a) :
    (s.withRom m).Inv := by
  refine ⟨haddr.trans h.1, h.2, h.3, h.4, fun hp => ?_, h.6, fun hv => ?_⟩
  · obtain ⟨hv, hd, hl, hm⟩ := h.headerPresent hp
    refine ⟨hv, hd, hl, ?_⟩
    have key := hread hp
    simp only [State.HeaderMatchesRom, State.withRom_rom] at hm ⊢
    simpa [key] using hm
  · obtain ⟨h1, h2, h3⟩ := h.noRom hv
    rw [h1] at haddr
    exact ⟨by simpa [Memory.addrs] using haddr, h2, h3⟩

/-- A tile span never reaches the header bytes of a headered ROM (R37). -/
theorem State.Inv.writeTileSpan (h : s.Inv) (n : Nat) (bs : List Byte) :
    (s.withRom (Memory.writeSpan s.rom (tileOff s n) bs)).Inv := by
  refine h.withRom (Memory.addrs_writeSpan _ _ _) fun hp a ha => ?_
  have hd := (h.headerPresent hp).2.1
  exact Memory.read_writeSpan_outside _ _ _ _ (.inl (by rw [tileOff, hd]; omega))

/-- PARSE of a headered buffer within the capacity. -/
theorem State.Inv.installHeadered {buf : List Byte} (h : s.Inv)
    (hc : fitsCapacity s.params.romCapacity buf.length = true)
    (hm : hasMagic buf = true) (hl : 16 ≤ buf.length) :
    ((s.installRom buf).writeHeader buf).Inv := by
  rw [hasMagic_iff] at hm
  have first (k : Nat) (hk : k < 4) : buf[k]? = [(0x4E : Byte), 0x45, 0x53, 0x1A][k]? := by
    rw [← hm, List.getElem?_take_of_lt hk]
  refine ⟨Memory.addrs_ofBytes buf, hc, h.3, rfl, fun _ => ⟨rfl, rfl, hl, ?_⟩,
    (fun h => by cases h), (fun h => by cases h)⟩
  refine ⟨?_, ?_, ?_, ?_, ?_, ?_, ?_, ?_, ?_, ?_, ?_⟩ <;>
    simp only [State.writeHeader_rom, State.installRom_rom, Memory.read_ofBytes]
  · exact first 0 (by omega)
  · exact first 1 (by omega)
  · exact first 2 (by omega)
  · exact first 3 (by omega)
  all_goals exact getElem?_eq_byteAt (by omega)

/-- PARSE of a headerless buffer within the capacity. -/
theorem State.Inv.installHeaderless {buf : List Byte} (h : s.Inv)
    (hc : fitsCapacity s.params.romCapacity buf.length = true) :
    ((s.installRom buf).clearHeader).Inv :=
  ⟨Memory.addrs_ofBytes buf, hc, h.3, (by decide : (0 : Byte) = mapperOf 0 0),
    (fun h => by cases h), fun _ => ⟨rfl, rfl, rfl, rfl, rfl, rfl, rfl, rfl, rfl⟩,
    (fun h => by cases h)⟩

/-- A PARSE the command port lets through is within the capacity. -/
theorem fitsCapacity_of_wellFormed {p : Params} {buf : List Byte}
    (h : (Instr.parse buf).wellFormed p = true) : fitsCapacity p.romCapacity buf.length = true := by
  by_contra hc
  simp [Instr.wellFormed, Instr.illFormed?, hc] at h

/-! ### Memory under it -/

/-- The ROM memory is canonical. -/
theorem State.Inv.rom_wf (h : s.Inv) : Memory.wf s.rom = true :=
  Memory.wf_of_addrs_range h.romAddresses

/-- Every address below ROM_LENGTH has a byte. -/
theorem State.Inv.read_exists (h : s.Inv) {a : Nat} (ha : a < s.romLength) :
    ∃ b, Memory.read s.rom a = some b :=
  Option.isSome_iff_exists.mp ((Memory.read_isSome_of_range h.romAddresses a).mpr ha)

theorem State.Inv.readSpan_exists (h : s.Inv) {a n : Nat} (ha : a + n ≤ s.romLength) :
    ∃ bs, Memory.readSpan s.rom a n = some bs :=
  Memory.exists_readSpan _ _ _ fun _ hk =>
    (Memory.read_isSome_of_range h.romAddresses _).mpr (by omega)

theorem State.Inv.hasSpan (h : s.Inv) {a n : Nat} (ha : a + n ≤ s.romLength) :
    Memory.hasSpan s.rom a n = true :=
  (Memory.hasSpan_iff _ _ _).mpr fun _ hk =>
    (Memory.read_isSome_of_range h.romAddresses _).mpr (by omega)

/-! ### The commands that need it, in range -/

/-- READ_TILE in range decodes the sixteen bytes it reads. -/
theorem execReadTile_next (h : s.Inv) {n : Nat} (hv : s.romValid = true)
    (hr : tileOff s n + 16 ≤ s.romLength) :
    ∃ enc, Memory.readSpan s.rom (tileOff s n) 16 = some enc ∧
      execReadTile n s = .next (s.withResponse (.ok (.dataOut (decodeTile enc)))) := by
  obtain ⟨enc, henc⟩ := h.readSpan_exists hr
  exact ⟨enc, henc, execReadTile_of_span hv hr henc⟩

/-- WRITE_TILE in range writes the sixteen bytes of the encoded tile. -/
theorem execWriteTile_next (h : s.Inv) {n : Nat} {flat : List Nat} (hv : s.romValid = true)
    (hl : flat.length = 64) (hr : tileOff s n + 16 ≤ s.romLength) :
    ∃ m, m = Memory.writeSpan s.rom (tileOff s n) (encodeTile flat) ∧
      execWriteTile n flat s = .next ((s.withRom m).withResponse (.ok .none)) := by
  refine ⟨_, rfl, ?_⟩
  simp [execWriteTile, hv, inRange, hr, hl, h.hasSpan hr, finish]

/-- The bytes of a tile span just written. -/
theorem State.Inv.read_writeTileSpan (h : s.Inv) {n : Nat} (flat : List Nat)
    (hr : tileOff s n + 16 ≤ s.romLength) {k : Nat} (hk : k < 16) :
    Memory.read (Memory.writeSpan s.rom (tileOff s n) (encodeTile flat)) (tileOff s n + k) =
      (encodeTile flat)[k]? := by
  obtain ⟨b, hb⟩ := h.read_exists (a := tileOff s n + k) (by omega)
  rw [Memory.read_writeSpan_inside _ _ _ _ (by simpa using hk), hb, List.getElem?_eq_getElem]
  rfl

end Sys2Proof.Machine
end

