-- ==== Sys2Proof/Laws/PerInstr.lean ====
section
/-! SUPPORT. Statements for every instruction, one lemma for each constructor. -/

namespace Sys2Proof.Laws

/-- The encoder gives the CMD byte that the opcode map of R72 gives the instruction's opcode. -/
def EncodesItsOpcode.Statement (i : Instr) : Prop :=
  opcodeOfByte (encode i).cmd = some i.opcode

theorem EncodesItsOpcode.parse (buf : List Byte) : EncodesItsOpcode.Statement (.parse buf) := rfl
theorem EncodesItsOpcode.decode (enc : List Byte) : EncodesItsOpcode.Statement (.decode enc) := rfl
theorem EncodesItsOpcode.encode (flat : List Nat) : EncodesItsOpcode.Statement (.encode flat) := rfl
theorem EncodesItsOpcode.tileOffset (n : Nat) : EncodesItsOpcode.Statement (.tileOffset n) := rfl
theorem EncodesItsOpcode.readTile (n : Nat) : EncodesItsOpcode.Statement (.readTile n) := rfl
theorem EncodesItsOpcode.writeTile (n : Nat) (flat : List Nat) :
    EncodesItsOpcode.Statement (.writeTile n flat) := rfl
theorem EncodesItsOpcode.readReg (r : Nat) : EncodesItsOpcode.Statement (.readReg r) := rfl
theorem EncodesItsOpcode.readRom (a : Nat) : EncodesItsOpcode.Statement (.readRom a) := rfl

end Sys2Proof.Laws
end

