-- ==== Sys2Proof/Laws/Step.lean ====
section
/-! SUPPORT. What one step can do. -/

namespace Sys2Proof.Machine

variable {s t : State}

theorem step_nil (h : s.program = []) : step s = .next s.withoutResponse := by
  rw [step, h]; rfl

theorem step_cons {c : Command} {rest : List Command} (h : s.program = c :: rest) :
    step s = issue c (s.withProgram rest) := by
  rw [step, h]

theorem issue_reserved {c : Command} (h : decode c = .reserved) :
    issue c s = .next (s.withResponse (.err .illegalCommand)) := by
  rw [issue, h]; rfl

theorem issue_instr {c : Command} {i : Instr} (h : decode c = .instr i)
    (hw : i.wellFormed s.params = true) : issue c s = exec i s := by
  rw [Instr.wellFormed, Option.isNone_iff_eq_none] at hw
  simp only [issue, h, hw]

theorem issue_illFormed {c : Command} {why : IllFormed} (h : decode c = .illFormed why) :
    issue c s = .refused (.illFormed why) := by
  simp only [issue, h]

theorem issue_unpresentable {c : Command} {i : Instr} {why : IllFormed} (h : decode c = .instr i)
    (hw : i.illFormed? s.params = some why) : issue c s = .refused (.illFormed why) := by
  simp only [issue, h, hw]

/-- A presented command answers a next state only as a reserved OPC or by running. -/
theorem issue_cases {c : Command} (h : issue c s = .next t) :
    (decode c = .reserved ∧ t = s.withResponse (.err .illegalCommand)) ∨
    (∃ i, decode c = .instr i ∧ i.wellFormed s.params = true ∧ exec i s = .next t) := by
  unfold issue at h
  split at h
  · rename_i hd; exact .inl ⟨hd, (raise_eq_next _).mp h⟩
  · cases h
  · rename_i i hd
    split at h
    · cases h
    · rename_i hw; exact .inr ⟨i, hd, by rw [Instr.wellFormed, hw]; rfl, h⟩

/-- A step that answers a next state idles, meets a reserved OPC, or runs the decoded command. -/
theorem step_cases (h : step s = .next t) :
    (s.program = [] ∧ t = s.withoutResponse) ∨
    (∃ c rest, s.program = c :: rest ∧
      ((decode c = .reserved ∧
          t = (s.withProgram rest).withResponse (.err .illegalCommand)) ∨
        ∃ i, decode c = .instr i ∧ i.wellFormed s.params = true ∧
          exec i (s.withProgram rest) = .next t)) := by
  cases hp : s.program with
  | nil => rw [step_nil hp] at h; cases h; exact .inl ⟨rfl, rfl⟩
  | cons c rest =>
    rw [step_cons hp] at h
    exact .inr ⟨c, rest, rfl, issue_cases h⟩

/-- A run whose first step answers a next state goes on from it. -/
theorem run_succ {M : Host.Core} {k : Nat} {a b : M.State} (h : M.step a = .next b) :
    M.run (k + 1) a = M.run k b := by
  rw [Host.Core.run, h]

end Sys2Proof.Machine
end

