-- ==== Sys2Proof/Tests/Slice0.lean ====
section
/-! SUPPORT. The model's own tests: words written out from the opcode map, ill-formed terms, single
steps against the vectors of spec/95_test_vectors.md, and a witness for the hypotheses of every
statement. -/

namespace Sys2Proof.Tests

open Sys2Proof Sys2Proof.Machine

/-! ### Sample buffers and states -/

/-- V3's buffer: bytes 0..10 from the source, the spec's own fill after them. -/
def buf24 : List Byte :=
  [0x4E, 0x45, 0x53, 0x1A, 0x08, 0x10, 0x76, 0x47, 0x08, 0x09, 0x0A, 0, 0, 0, 0, 0,
    0, 1, 2, 3, 4, 5, 6, 7]

/-- V5's buffer of three tiles. -/
def buf48 : List Byte :=
  List.replicate 16 0x00 ++ (List.replicate 8 0xFF ++ List.replicate 8 0x00) ++
    (List.replicate 8 0x00 ++ List.replicate 8 0xFF)

/-- V1's encoded tile. -/
def encV1 : List Byte :=
  [0, 0, 0, 0, 0, 0, 0x7E, 0x3C, 0x3C, 0x7E, 0x7E, 0xFF, 0xFF, 0xFF, 0x42, 0]

/-- V1's grid, row 0 first. -/
def gridV1 : List Nat :=
  [0, 0, 2, 2, 2, 2, 0, 0] ++ [0, 2, 2, 2, 2, 2, 2, 0] ++ [0, 2, 2, 2, 2, 2, 2, 0] ++
  [2, 2, 2, 2, 2, 2, 2, 2] ++ [2, 2, 2, 2, 2, 2, 2, 2] ++ [2, 2, 2, 2, 2, 2, 2, 2] ++
  [0, 3, 1, 1, 1, 1, 3, 0] ++ [0, 0, 1, 1, 1, 1, 0, 0]

/-- The state a step leaves; the state before it when it leaves none. -/
def after (s : State) (o : Host.Outcome State Fault Refusal) : State :=
  match o with
  | .next t => t
  | .fault _ => s
  | .refused _ => s

/-- The state after PARSE of a buffer from reset. -/
def parsed (buf : List Byte) : State := after State.reset (exec (.parse buf) State.reset)

/-- The response of one command in a state. -/
def answer (i : Instr) (s : State) : Option Response := (after s (exec i s)).response

/-- The headered sample: V64's buffer, one whole tile. -/
def headered : State := (State.reset.installRom (buf24 ++ List.replicate 8 0)).writeHeader buf24

/-- The headerless sample: three tiles. -/
def headerless : State := (State.reset.installRom buf48).clearHeader

theorem reset_inv : State.reset.Inv :=
  ⟨rfl, rfl, rfl, (by decide : (0 : Byte) = mapperOf 0 0), (fun h => by cases h),
    fun _ => ⟨rfl, rfl, rfl, rfl, rfl, rfl, rfl, rfl, rfl⟩, fun _ => ⟨rfl, rfl, rfl⟩⟩

theorem headered_inv : headered.Inv :=
  reset_inv.installHeadered (buf := buf24 ++ List.replicate 8 0) rfl (by decide) (by decide)

theorem headerless_inv : headerless.Inv := reset_inv.installHeaderless rfl

/-! ### Decoding: each CMD byte written out from R71 and R72 -/

theorem test_decode_parse : decode ⟨0b00000001, 9, [0x4E]⟩ = .instr (.parse [0x4E]) := by decide
theorem test_decode_decode : decode ⟨0b00000010, 9, [0xFF]⟩ = .instr (.decode [0xFF]) := by decide
theorem test_decode_encode : decode ⟨0b00000011, 9, [256]⟩ = .instr (.encode [256]) := by decide
theorem test_decode_tileOffset : decode ⟨0b00000100, 9, [1]⟩ = .instr (.tileOffset 9) := by decide
theorem test_decode_readTile : decode ⟨0b00000101, 9, [1]⟩ = .instr (.readTile 9) := by decide
theorem test_decode_writeTile :
    decode ⟨0b00000110, 9, [256]⟩ = .instr (.writeTile 9 [256]) := by decide
theorem test_decode_readReg : decode ⟨0b00000111, 9, [1]⟩ = .instr (.readReg 9) := by decide
theorem test_decode_readRom : decode ⟨0b00001000, 9, [1]⟩ = .instr (.readRom 9) := by decide
/-- V72's bytes. -/
theorem test_decode_reserved :
    [0x00, 0x09, 0x10, 0x80, 0xFF].map (fun b => decode ⟨b, 3, [7]⟩) =
      List.replicate 5 .reserved := by decide
theorem test_table_words :
    (List.range 10).map (decodeTableWord 8) =
      [none, some (.parse []), some (.decode []), some (.encode []), some (.tileOffset 0),
        some (.readTile 0), some (.writeTile 0 []), some (.readReg 0), some (.readRom 0), none] ∧
    decodeTableWord 16 0x01 = none := by decide

/-! ### Ill-formed terms, one for each check -/

theorem test_byte_element_refused : decode ⟨0x02, 0, [255, 256]⟩ = .illFormed .byteElementTooWide := by
  decide
theorem test_pixel_element_refused :
    Instr.illFormed? ⟨none, some 2, none⟩ (.encode [3, 4]) = some .pixelElementTooWide ∧
    Instr.illFormed? ⟨none, some 2, none⟩ (.writeTile 0 [4]) = some .pixelElementTooWide := by decide
theorem test_arg_refused :
    Instr.illFormed? ⟨some 4, none, none⟩ (.readTile 16) = some .argTooWide ∧
    Instr.illFormed? ⟨some 4, none, none⟩ (.writeTile 16 []) = some .argTooWide ∧
    Instr.illFormed? ⟨some 4, none, none⟩ (.readRom 15) = none := by decide
theorem test_capacity_refused :
    Instr.illFormed? ⟨none, none, some 1⟩ (.parse [0, 0]) = some .romCapacityExceeded ∧
    Instr.wellFormed ⟨none, none, some 2⟩ (.parse [0, 0]) = true := by decide
theorem test_params_refused : Params.wf ⟨none, some 1, none⟩ = false ∧ Params.reference.wf = true := by
  decide

/-! ### Single steps against the vectors -/

/-- V3: the registers after PARSE of the header scenario. -/
theorem test_parse_header :
    (List.range 12).map (fun r => answer (.readReg r) (parsed buf24)) =
      [1, 24, 16, 1, 8, 16, 0x76, 0x47, 8, 9, 10, 71].map (fun v => some (.ok (.result v))) := by
  decide
/-- V41, V42, V45, V46: which short or near-magic buffers fail. -/
theorem test_parse_magic :
    [[0x4E, 0x45, 0x53], [0x4E, 0x45, 0x53, 0x1A], buf24.take 11, [0x6E, 0x45, 0x53, 0x1A]].map
        (fun b => answer (.parse b) State.reset) =
      [some (.ok .none), some (.err .malformedHeader), some (.err .malformedHeader),
        some (.ok .none)] := by decide
/-- V1. -/
theorem test_decode_v1 : answer (.decode encV1) State.reset = some (.ok (.dataOut gridV1)) := by decide
/-- V33. -/
theorem test_decode_length :
    answer (.decode (List.replicate 15 0)) State.reset = some (.err .invalidInputSize) ∧
    answer (.decode (List.replicate 17 0)) State.reset = some (.err .invalidInputSize) := by decide
/-- V2. -/
theorem test_encode_v2 :
    answer (.encode gridV1) State.reset = some (.ok (.dataOut (encV1.map BitVec.toNat))) := by decide
/-- V31: out-of-range pixels. -/
theorem test_encode_low_bits :
    answer (.encode (List.replicate 16 [4, 5, 6, 7]).flatten) State.reset =
      some (.ok (.dataOut (List.replicate 8 0x55 ++ List.replicate 8 0x33))) := by decide
/-- V65: no wrap at 2^32. -/
theorem test_tileOffset_exact :
    answer (.tileOffset 4294967296) (parsed buf24) = some (.ok (.result 68719476752)) := by decide
/-- V68. -/
theorem test_tileOffset_noRom : answer (.tileOffset 0) State.reset = some (.err .noRom) := by decide
/-- V5 and V61: the last tile reads, the one after it does not. -/
theorem test_readTile_last :
    answer (.readTile 2) (parsed buf48) = some (.ok (.dataOut (List.replicate 64 2))) ∧
    answer (.readTile 3) (parsed buf48) = some (.err .indexOutOfRange) := by decide
/-- V62: a trailing partial tile. -/
theorem test_readTile_partial :
    answer (.readTile 2) (parsed (List.replicate 47 0)) = some (.err .indexOutOfRange) := by decide
/-- V5: only bytes 16 to 31 change. -/
theorem test_writeTile_bytes :
    (after (parsed buf48) (exec (.writeTile 1 (List.replicate 64 3)) (parsed buf48))).hostView =
      List.replicate 16 0x00 ++ List.replicate 16 0xFF ++ List.replicate 8 0x00 ++
        List.replicate 8 0xFF := by decide
/-- V66: the size error comes before the range error, and NoRom before both. -/
theorem test_writeTile_priority :
    answer (.writeTile 7 (List.replicate 63 0)) (parsed buf48) = some (.err .invalidInputSize) ∧
    answer (.writeTile 7 (List.replicate 63 0)) State.reset = some (.err .noRom) := by decide
/-- V48's row FLAGS6 = F0, FLAGS7 = 0F. -/
theorem test_readReg_mapper :
    answer (.readReg 0xB) (parsed ([0x4E, 0x45, 0x53, 0x1A, 0, 0, 0xF0, 0x0F] ++
      List.replicate 8 0)) = some (.ok (.result 0x0F)) := by decide
/-- V68 and V70: NoRom before NoHeader, and the reserved number before both. -/
theorem test_readReg_errors :
    answer (.readReg 0xB) State.reset = some (.err .noRom) ∧
    answer (.readReg 0x4) (parsed buf48) = some (.err .noHeader) ∧
    answer (.readReg 0xC) State.reset = some (.err .illegalCommand) := by decide
/-- V71. -/
theorem test_readRom_bounds :
    answer (.readRom 0) (parsed buf24) = some (.ok (.result 0x4E)) ∧
    answer (.readRom 23) (parsed buf24) = some (.ok (.result 0x07)) ∧
    answer (.readRom 24) (parsed buf24) = some (.err .indexOutOfRange) := by decide
/-- V72 through a step, at every kind of operand. -/
theorem test_step_reserved :
    (after State.reset (step (State.reset.load [⟨0x09, 5, [1, 300]⟩]))).response =
      some (.err .illegalCommand) := by decide
/-- Reset, then a table word: the step runs it. -/
theorem test_step_fetches_word :
    (after State.reset (step (State.reset.withFetchWord 8 0x01))).romValid = true ∧
    (after State.reset (step (State.reset.withFetchWord 8 0x05))).response = some (.err .noRom) := by
  decide
/-- R78's forms. -/
theorem test_assemble :
    assemble "PARSE [] ++ fill(0x00, 2)\n; nothing\n  READ_ROM 0xA ; last" =
      some [⟨0x01, 0, [0, 0]⟩, ⟨0x08, 10, []⟩] := by decide
theorem test_assemble_rejects :
    assemble "READ_TILE" = none ∧ assemble "PARSE [1,]" = none ∧ assemble "TILE_OFFSET 1 2" = none := by
  decide

/-! ### Witnesses: states and operands that meet each statement's hypotheses -/

/-- Legal parameters, the reference ones and the narrowest. -/
theorem witness_InvariantHoldsAtReset :
    Params.reference.wf = true ∧ Params.wf ⟨some 0, some 2, some 0⟩ = true := by decide

/-- For the statements about a step that answers a next state. -/
theorem witness_EveryStepKeepsTheInvariant :
    (headered.load [⟨0x05, 0, []⟩]).Inv ∧
      ∃ t, step (headered.load [⟨0x05, 0, []⟩]) = .next t :=
  ⟨headered_inv.withProgram _, _, rfl⟩

theorem witness_EveryStepKeepsMemoryCanonical :
    Memory.wf (headerless.load [⟨0x04, 0, []⟩]).rom = true ∧
      ∃ t, step (headerless.load [⟨0x04, 0, []⟩]) = .next t := ⟨by decide, _, rfl⟩

theorem witness_StepRunsTheDecodedCommand :
    (State.reset.load [⟨0x05, 0, []⟩]).program = [⟨0x05, 0, []⟩] ∧
      decode ⟨0x05, 0, []⟩ = .instr (.readTile 0) ∧
      (Instr.readTile 0).wellFormed State.reset.params = true := by decide

theorem witness_StepWithoutCommandHoldsTheState : State.reset.program = [] := rfl

theorem witness_StepTakesOneCommand :
    ∃ t, step (State.reset.load [⟨0x05, 0, []⟩, ⟨0xFF, 0, []⟩]) = .next t := ⟨_, rfl⟩

/-- The boundary values 0x00, 0x09 and 0xFF, and 0x08, which is not reserved. -/
theorem witness_ReservedOpcodes :
    ([0x00, 0x09, 0xFF, 0x08] : List Byte).map
      (fun b => decide (b.toNat = 0 ∨ 9 ≤ b.toNat)) = [true, true, true, false] := by decide

/-- Both clauses' bytes, and ports that differ. -/
theorem witness_UnusedOperandPortsAreIgnored :
    ((0x03 : Byte) = 0x01 ∨ (0x03 : Byte) = 0x02 ∨ (0x03 : Byte) = 0x03) ∧
    ((0x08 : Byte) = 0x04 ∨ (0x08 : Byte) = 0x05 ∨ (0x08 : Byte) = 0x07 ∨ (0x08 : Byte) = 0x08) := by
  decide

theorem witness_EncodingInvertsDecoding :
    decode ⟨0x06, 7, [300]⟩ = .instr (.writeTile 7 [300]) ∧ 4 ≤ (0x06 : Byte).toNat ∧
    decode ⟨0x03, 7, [300]⟩ = .instr (.encode [300]) ∧ (0x03 : Byte).toNat ≤ 3 := by decide

/-- Each refusal clause at the first value that cannot be presented: 256; length 2 at capacity 1;
16 at ARG_WIDTH 4 for opcodes 4 and 8; 4 at PIXEL_IN_WIDTH 2. -/
theorem witness_UnpresentableCommandsAreRefused :
    (∃ v ∈ [256], 255 < v) ∧
    ((∀ v ∈ [0, 255], v ≤ 255) ∧ 1 < [0, 255].length) ∧
    (4 ≤ (0x04 : Byte).toNat ∧ (0x08 : Byte).toNat ≤ 8 ∧ 2 ^ 4 ≤ 16) ∧
    (∃ v ∈ [4], 2 ^ 2 ≤ v) ∧ fitsWidth (some 4) 15 = true := by decide

theorem witness_PresentableCommandsAlwaysEnd :
    (headerless.load [⟨0x09, 0, []⟩, ⟨0x02, 0, [255]⟩]).Inv ∧
    Command.presentable headerless.params ⟨0x09, 0, []⟩ = true ∧
    Command.presentable headerless.params ⟨0x02, 0, [255]⟩ = true ∧
    Command.presentable headerless.params ⟨0x02, 0, [256]⟩ = false :=
  ⟨headerless_inv.withProgram _, by decide, by decide, by decide⟩

theorem witness_EveryPresentableProgramRunsToItsEnd :
    Params.wf ⟨some 4, some 2, some 16⟩ = true ∧
    ∀ c ∈ [(⟨0x01, 0, List.replicate 16 0⟩ : Command), ⟨0x05, 15, []⟩, ⟨0x03, 99, [3]⟩],
      c.presentable ⟨some 4, some 2, some 16⟩ = true := by decide

theorem witness_ResponsesCarryAtMostOneOutput :
    Response.status (.err .malformedHeader) ≠ 0 := by decide

theorem witness_StatusCodesAreTheSpecs :
    ∃ t r, step (State.reset.load [⟨0x08, 0, []⟩]) = .next t ∧ t.response = some r := ⟨_, _, rfl, rfl⟩

theorem witness_HostViewIsTheRomMemory : headered.Inv := headered_inv

/-- The lengths on either side, and the only length that decodes. -/
theorem witness_DecodeCommand :
    (List.replicate 15 (0 : Byte)).length ≠ 16 ∧ (List.replicate 17 (0 : Byte)).length ≠ 16 ∧
    encV1.length = 16 := by decide

theorem witness_EncodeCommand :
    (List.replicate 63 0).length ≠ 64 ∧ (List.replicate 65 0).length ≠ 64 ∧ gridV1.length = 64 := by
  decide

/-- Two tiles that agree at lane (7, 7) and differ elsewhere, on either side. -/
theorem witness_LanesAreIndependent :
    (encV1.length = 16 ∧ (List.replicate 16 (0 : Byte)).length = 16 ∧
      bit (byteAt encV1 7) (7 - 7) = bit (byteAt (List.replicate 16 0) 7) (7 - 7) ∧
      bit (byteAt encV1 (8 + 7)) (7 - 7) = bit (byteAt (List.replicate 16 0) (8 + 7)) (7 - 7)) ∧
    gridV1.length = 64 ∧ (List.replicate 64 4).length = 64 ∧
      gridV1.getD (7 * 8 + 7) 0 % 4 = (List.replicate 64 4).getD (7 * 8 + 7) 0 % 4 := by decide

theorem witness_CodecRoundTrips :
    (gridV1.length = 64 ∧ ∀ v ∈ gridV1, v < 4) ∧ encV1.length = 16 := by decide

theorem witness_OutOfRangePixelsKeepTheirLowBits :
    (List.replicate 64 5).length = 64 ∧ (List.replicate 64 1).length = 64 ∧
    (List.replicate 64 5).map (· % 4) = (List.replicate 64 1).map (· % 4) := by decide

theorem witness_OnePixelSetsItsOwnBitPositions : 7 < 8 ∧ 7 < 8 ∧ 3 < 4 := by decide

/-- The three clauses at 15 bytes with the magic, 16 with it, and 16 without it. -/
theorem witness_ParseCommand :
    ((buf24.take 15).take 4 = [0x4E, 0x45, 0x53, 0x1A] ∧ (buf24.take 15).length < 16) ∧
    ((buf24.take 16).take 4 = [0x4E, 0x45, 0x53, 0x1A] ∧ 16 ≤ (buf24.take 16).length) ∧
    (buf48.take 16).take 4 ≠ [0x4E, 0x45, 0x53, 0x1A] := by decide

theorem witness_ParseForgetsThePreviousRom :
    headered.program = headerless.program ∧ headered.params = headerless.params ∧
    ∃ t, exec (.parse buf24) headered = .next t ∧ t.response = some (.ok .none) :=
  ⟨rfl, rfl, _, rfl, rfl⟩

theorem witness_ParseReadsOnlyBytesZeroToTen :
    buf24.length = (buf24.take 11 ++ List.replicate 13 0xFF).length ∧
    ∀ k < 11, buf24[k]? = (buf24.take 11 ++ List.replicate 13 0xFF)[k]? := by decide

theorem witness_TileOffsetCommand : State.reset.romValid = false ∧ headered.romValid = true := by decide

/-- The first tile out of range, and the last in range, where the span ends at ROM_LENGTH. -/
theorem witness_ReadTileCommand :
    headered.Inv ∧ State.reset.romValid = false ∧ headered.romValid = true ∧
    headered.romLength < tileOff headered 1 + 16 ∧ tileOff headered 0 + 16 = headered.romLength :=
  ⟨headered_inv, by decide, by decide, by decide, by decide⟩

theorem witness_WriteTileCommand :
    headerless.Inv ∧ State.reset.romValid = false ∧ headerless.romValid = true ∧
    (List.replicate 63 0).length ≠ 64 ∧ gridV1.length = 64 ∧
    headerless.romLength < tileOff headerless 3 + 16 ∧
    tileOff headerless 2 + 16 = headerless.romLength :=
  ⟨headerless_inv, by decide, by decide, by decide, by decide, by decide, by decide⟩

/-- For the read/write laws: tile 1 in range, a 64-pixel tile, another index, and a run of one
command that reads only. -/
theorem witness_TileReadWriteLaws :
    headerless.Inv ∧ headerless.romValid = true ∧ tileOff headerless 1 + 16 ≤ headerless.romLength ∧
    gridV1.length = 64 ∧ 2 ≠ 1 ∧
    (∃ s1, exec (.writeTile 2 gridV1) headerless = .next s1) ∧
    ∃ s1 s2, exec (.readTile 1) headerless = .next s1 ∧
      Relation.ReflTransGen (fun u v => ∃ i : Instr, i.readsOnly = true ∧ exec i u = .next v) s1 s2 :=
  ⟨headerless_inv, by decide, by decide, by decide, by decide, ⟨_, rfl⟩, _, _, rfl,
    .single ⟨.tileOffset 0, rfl, rfl⟩⟩

theorem witness_WritesToDifferentTilesCommute :
    headerless.Inv ∧ headerless.romValid = true ∧ 0 ≠ 2 ∧ gridV1.length = 64 ∧
    tileOff headerless 0 + 16 ≤ headerless.romLength ∧
    tileOff headerless 2 + 16 ≤ headerless.romLength :=
  ⟨headerless_inv, by decide, by decide, by decide, by decide, by decide⟩

theorem witness_WritingATileTwiceIsWritingItOnce :
    headered.Inv ∧ headered.romValid = true ∧ gridV1.length = 64 ∧
    tileOff headered 0 + 16 ≤ headered.romLength :=
  ⟨headered_inv, by decide, by decide, by decide⟩

theorem witness_ReadRomSeesTheTileJustWritten :
    headered.Inv ∧ headered.romValid = true ∧ gridV1.length = 64 ∧
    tileOff headered 0 + 16 ≤ headered.romLength ∧ 15 < 16 :=
  ⟨headered_inv, by decide, by decide, by decide, by decide⟩

/-- READ_REG's clauses where they meet: 0xB and 0xC, 0 and 1, 3 and 4. -/
theorem witness_ReadRegCommand :
    0xB < 0xC ∧ ((1 : Nat) ≠ 0 ∧ State.reset.romValid = false) ∧
    (4 ≤ 4 ∧ headerless.romValid = true ∧ headerless.headerPresent = false) ∧
    (3 < 4 ∧ headerless.romValid = true) ∧ (0xB ≤ 0xB ∧ headered.headerPresent = true) := by decide

theorem witness_ReadRomCommand :
    headered.Inv ∧ State.reset.romValid = false ∧ headered.romValid = true ∧
    headered.romLength ≤ 32 ∧ 31 < headered.romLength :=
  ⟨headered_inv, by decide, by decide, by decide, by decide⟩

/-- The last index below the tile count and the first at it. -/
theorem witness_TileCountBoundsTheIndex :
    headered.Inv ∧ headered.romValid = true ∧ headered.dataOffset ≤ headered.romLength ∧
    0 < tileCount headered ∧ tileCount headered ≤ 1 ∧ headered.headerPresent = true :=
  ⟨headered_inv, by decide, by decide, by decide, by decide, by decide⟩

theorem witness_CommandsRaiseTheErrorsOfTheirRow :
    (∃ t, exec (.readReg 0xC) State.reset = .next t ∧ t.response = some (.err .illegalCommand)) ∧
    mayRaise .readReg .noHeader = true ∧ decode ⟨0x09, 0, []⟩ = .reserved :=
  ⟨⟨_, rfl, rfl⟩, by decide, by decide⟩

theorem witness_ErrorsChangeNoState :
    ∃ t, step (headered.load [⟨0x05, 1, []⟩]) = .next t ∧
      t.response = some (.err .indexOutOfRange) := ⟨_, rfl, rfl⟩

/-- One state with no ROM, one headerless and one headered meet the clauses' hypotheses; the
boundary operands are those of the commands' own witnesses. -/
theorem witness_FirstErrorInOrderIsReported :
    (State.reset.load [⟨0x00, 0, []⟩]).program = [⟨0x00, 0, []⟩] ∧ State.reset.romValid = false ∧
    headerless.romValid = true ∧ headerless.headerPresent = false ∧
    headerless.romLength < tileOff headerless 3 + 16 ∧ headerless.romLength ≤ 48 := by decide

/-- With no ROM: tiles of the codec's sizes, and buffers PARSE takes, the empty one among them. -/
theorem witness_OnlyRomDependentCommandsRaiseNoRom :
    State.reset.romValid = false ∧ encV1.length = 16 ∧ gridV1.length = 64 ∧
      ([] : List Byte).take 4 ≠ [0x4E, 0x45, 0x53, 0x1A] ∧
      16 ≤ ([0x4E, 0x45, 0x53, 0x1A] ++ List.replicate 12 (0 : Byte)).length := by decide

/-- Decimal and hexadecimal spellings, and an expression with every kind of term. -/
theorem witness_EveryCommandHasAnAssemblerForm :
    SpellsNumbers Nat.repr ∧
      SpellsNumbers (fun n => "0x" ++ String.ofList (Nat.toDigits 16 n)) ∧
      [SeqTerm.literal [], .literal [1, 2], .fill 3 4] ≠ [] :=
  ⟨fun _ => .inl rfl, fun _ => .inr rfl, by simp⟩

theorem witness_OnlyParseAndWriteTileWrite :
    (∃ t, exec (.decode encV1) headered = .next t) ∧ (Instr.decode encV1).readsOnly = true ∧
    ∃ t, exec (.writeTile 0 gridV1) headered = .next t := ⟨⟨_, rfl⟩, rfl, _, rfl⟩

theorem witness_OnceInstalledTheRomStays :
    (∃ t, step (headered.load [⟨0x09, 0, []⟩]) = .next t ∧ headered.romValid = true) ∧
    ∃ t, step (State.reset.load [⟨0x01, 0, []⟩]) = .next t ∧ State.reset.romValid = false ∧
      t.romValid = true := ⟨⟨_, rfl, rfl⟩, _, rfl, rfl, rfl⟩

/-- WRITE_TILE 0 on a headerless ROM changes its byte 15. -/
theorem witness_HeaderBytesChangeOnlyWithoutHeader :
    headerless.Inv ∧ ∃ t, exec (.writeTile 0 (List.replicate 64 3)) headerless = .next t ∧
      Memory.read t.rom 15 ≠ Memory.read headerless.rom 15 :=
  ⟨headerless_inv, _, rfl, by decide⟩

/-- Two states that differ only in a register no command shows before PARSE. -/
theorem witness_UnobservableRegistersNeverShow :
    State.reset.Alike (after State.reset (.next State.reset)) ∧
    (State.reset.withResponse (.ok .none)).Alike ((State.reset.writeHeader buf24).withRom [(0, 1)]) :=
  ⟨⟨rfl, rfl, rfl, fun h => by cases h⟩, ⟨rfl, rfl, rfl, fun h => by cases h⟩⟩

end Sys2Proof.Tests
end

/-! Completion of commands and programs (00_scope.md R11, 10_state.md R22, 60_exceptions.md R216):
the rules of every command and every step that the statements rest on. A command that runs
from a state with the invariant ends and leaves a response, and a step keeps the invariant, takes
one command of the list and leaves the parameters. -/

namespace Sys2Proof.Machine

variable {s t : State}

/-! ### No command faults where the invariant holds (log 6) -/

@[simp] theorem finish_ne_fault (o : Output) (s : State) (f : Fault) :
    finish o s ≠ .fault f := nofun
@[simp] theorem raise_ne_fault (e : ErrorCause) (s : State) (f : Fault) :
    raise e s ≠ .fault f := nofun

theorem execReadTile_ne_fault (h : s.Inv) (n : Nat) (f : Fault) : execReadTile n s ≠ .fault f := by
  rw [execReadTile]
  split
  · simp
  · split
    · simp
    · rename_i hr
      obtain ⟨enc, henc⟩ : ∃ enc, Memory.readSpan s.rom (tileOff s n) 16 = some enc :=
        h.readSpan_exists (by simpa [inRange] using hr)
      simp [henc]

theorem execWriteTile_ne_fault (h : s.Inv) (n : Nat) (flat : List Nat) (f : Fault) :
    execWriteTile n flat s ≠ .fault f := by
  rw [execWriteTile]
  split
  · simp
  · split
    · simp
    · split
      · simp
      · rename_i hr
        have hspan : Memory.hasSpan s.rom (tileOff s n) 16 = true :=
          h.hasSpan (by simpa [inRange] using hr)
        simp [hspan]

theorem execReadRom_ne_fault (h : s.Inv) (a : Nat) (f : Fault) : execReadRom a s ≠ .fault f := by
  rw [execReadRom]
  split
  · simp
  · split
    · simp
    · rename_i ha
      obtain ⟨b, hb⟩ := h.read_exists (a := a) (by omega)
      simp [hb]

/-- Only the three commands that access the ROM memory have a fault to raise, and under the
invariant every address they check against ROM_LENGTH exists. -/
theorem exec_ne_fault (h : s.Inv) (i : Instr) (f : Fault) : exec i s ≠ .fault f := by
  cases i with
  | parse buf =>
    rw [exec, execParse]
    split
    · split <;> simp
    · simp
  | decode enc => rw [exec, execDecode]; split <;> simp
  | encode flat => rw [exec, execEncode]; split <;> simp
  | tileOffset n => rw [exec, execTileOffset]; split <;> simp
  | readTile n => exact execReadTile_ne_fault h n f
  | writeTile n flat => exact execWriteTile_ne_fault h n flat f
  | readReg r =>
    rw [exec, execReadReg]
    split
    · simp
    · split
      · simp
      · split <;> simp
  | readRom a => exact execReadRom_ne_fault h a f

/-! ### Every command that runs ends with a response (R11) -/

theorem exec_completes (h : s.Inv) (i : Instr) : ∃ t, exec i s = .next t := by
  cases hx : exec i s with
  | next t => exact ⟨t, rfl⟩
  | fault f => exact absurd hx (exec_ne_fault h i f)
  | refused r => exact absurd hx (exec_ne_refused i s r)

theorem exec_response_isSome {i : Instr} (h : exec i s = .next t) : t.response.isSome = true := by
  rcases exec_cases h with ⟨_, -, rfl⟩ | ⟨_, rfl⟩ | ⟨_, _, -, -, -, -, _, -, rfl⟩ |
    ⟨_, -, -, -, rfl⟩ | ⟨_, -, -, rfl⟩ <;> rfl

theorem presentable_iff (p : Params) (c : Command) :
    c.presentable p = true ↔
      decode c = .reserved ∨ ∃ i, decode c = .instr i ∧ i.wellFormed p = true := by
  rw [Command.presentable]
  cases decode c <;> simp

theorem issue_completes {c : Command} (h : s.Inv) (hc : c.presentable s.params = true) :
    ∃ t, issue c s = .next t ∧ t.response.isSome = true := by
  rcases (presentable_iff _ _).mp hc with hd | ⟨i, hd, hw⟩
  · exact ⟨_, issue_reserved hd, rfl⟩
  · obtain ⟨t, ht⟩ := exec_completes h i
    exact ⟨t, (issue_instr hd hw).trans ht, exec_response_isSome ht⟩

/-! ### What every step keeps -/

theorem exec_keeps_inv {i : Instr} (h : s.Inv) (hw : i.wellFormed s.params = true)
    (hx : exec i s = .next t) : t.Inv := by
  rcases exec_cases hx with ⟨e, -, rfl⟩ | ⟨o, rfl⟩ | ⟨n, flat, -, -, -, -, _, rfl, rfl⟩ |
    ⟨buf, rfl, hm, hl, rfl⟩ | ⟨buf, rfl, -, rfl⟩
  · exact h.withResponse _
  · exact h.withResponse _
  · exact (h.writeTileSpan n _).withResponse _
  · exact (h.installHeadered (fitsCapacity_of_wellFormed hw) hm hl).withResponse _
  · exact (h.installHeaderless (fitsCapacity_of_wellFormed hw)).withResponse _

/-- R36 as a rule of the step, with R20, R24, R34 and R37. -/
theorem step_keeps_inv (h : s.Inv) (hs : step s = .next t) : t.Inv := by
  rcases step_cases hs with ⟨-, rfl⟩ | ⟨c, rest, -, ⟨-, rfl⟩ | ⟨i, -, hw, hx⟩⟩
  · exact h.withoutResponse
  · exact (h.withProgram rest).withResponse _
  · exact exec_keeps_inv (h.withProgram rest) hw hx

/-- No command reads or writes the waiting list or the parameters (log 1, 3). -/
theorem exec_sameHost {i : Instr} (h : exec i s = .next t) : s.SameHost t := by
  rcases exec_cases h with ⟨_, -, rfl⟩ | ⟨_, rfl⟩ | ⟨_, _, -, -, -, -, _, -, rfl⟩ |
    ⟨_, -, -, -, rfl⟩ | ⟨_, -, -, rfl⟩ <;> exact ⟨rfl, rfl⟩

theorem step_takes_one_command (h : step s = .next t) :
    t.program = s.program.tail ∧ t.params = s.params := by
  rcases step_cases h with ⟨hp, rfl⟩ | ⟨c, rest, hp, ⟨-, rfl⟩ | ⟨i, -, -, hx⟩⟩
  · simp [hp]
  · simp [hp]
  · obtain ⟨hprog, hparams⟩ := exec_sameHost hx
    simp [hp, hprog, hparams]

/-! ### Steps and runs of presentable commands (R216) -/

theorem step_completes {c : Command} {rest : List Command} (h : s.Inv) (hp : s.program = c :: rest)
    (hc : c.presentable s.params = true) :
    ∃ t, step s = .next t ∧ t.response.isSome = true := by
  rw [step_cons hp]
  exact issue_completes (h.withProgram rest) hc

theorem State.resetWith_inv {p : Params} (hp : p.wf = true) : (State.resetWith p).Inv where
  romAddresses := rfl
  withinCapacity := by cases hc : p.romCapacity <;> simp [fitsCapacity, hc]
  paramsLegal := hp
  mapperFormula := (by decide : (0 : Byte) = mapperOf 0 0)
  headerPresent h := nomatch h
  headerAbsent _ := ⟨rfl, rfl, rfl, rfl, rfl, rfl, rfl, rfl, rfl⟩
  noRom _ := ⟨rfl, rfl, rfl⟩

/-- Induction on the waiting list: each step takes its first command and leaves the rest
presentable, since the parameters stay. -/
theorem run_completes {cs : List Command} (h : s.Inv) (hp : s.program = cs)
    (hcs : ∀ c ∈ cs, c.presentable s.params = true) :
    ∃ t, Sys2Proof.core.run cs.length s = .next t ∧ t.program = [] ∧ t.Inv := by
  induction cs generalizing s with
  | nil => exact ⟨s, rfl, hp, h⟩
  | cons c rest ih =>
    obtain ⟨u, hu, -⟩ := step_completes h hp (hcs c List.mem_cons_self)
    obtain ⟨hprog, hparams⟩ := step_takes_one_command hu
    have hrest : ∀ c ∈ rest, c.presentable u.params = true := fun c hc =>
      hparams ▸ hcs c (List.mem_cons_of_mem _ hc)
    obtain ⟨t, hrun, hend⟩ := ih (step_keeps_inv h hu) (by simp [hprog, hp]) hrest
    exact ⟨t, (run_succ hu).trans hrun, hend⟩

/-! ### The statements -/

/-- Settles O14: a reserved opcode ends with IllegalCommand, and any other presentable command runs,
where the invariant rules out the one fault. -/
theorem presentableCommandsAlwaysEnd : Obligations.PresentableCommandsAlwaysEnd :=
  fun _ _ _ h hp hc => step_completes h hp hc

/-- Settles O15: the invariant holds at reset, loading a program keeps it, and `run_completes` takes
the commands one by one. -/
theorem everyPresentableProgramRunsToItsEnd : Obligations.EveryPresentableProgramRunsToItsEnd :=
  fun _ cs hp hcs => run_completes ((State.resetWith_inv hp).withProgram ([] ++ cs)) rfl hcs

end Sys2Proof.Machine

/-! The state and what its registers show (10_state.md): the named flag bits and MAPPER, which
commands install a ROM, which change its header bytes, and the relation between two states that a
host cannot tell apart. -/

namespace Sys2Proof.Machine

variable {s t : State}

/-! ### Flag bits and MAPPER (R29, R30, R32, R34) -/

theorem toNat_getLsbD (b : Byte) (i : Nat) : (b.getLsbD i).toNat = b.toNat / 2 ^ i % 2 := by
  rw [← bit_eq_toNat, bit_eq]

@[simp] theorem mapperLo_toNat (f6 : Byte) : (mapperLo f6).toNat = f6.toNat / 16 := by
  have : f6.toNat < 256 := f6.isLt
  rw [mapperLo, BitVec.extractLsb'_toNat, Nat.shiftRight_eq_div_pow]
  omega

@[simp] theorem mapperHi_toNat (f7 : Byte) : (mapperHi f7).toNat = f7.toNat / 16 :=
  mapperLo_toNat f7

/-- MAPPER is its two nibbles side by side: the shift leaves the low one, the mask the high one. -/
theorem mapperOf_eq_append (f6 f7 : Byte) : mapperOf f6 f7 = mapperHi f7 ++ mapperLo f6 := by
  refine BitVec.eq_of_getLsbD_eq fun i hi => ?_
  rw [mapperOf, mapperHi, mapperLo, BitVec.getLsbD_append]
  interval_cases i <;> simp

theorem mapperOf_toNat (f6 f7 : Byte) :
    (mapperOf f6 f7).toNat = (mapperLo f6).toNat + 16 * (mapperHi f7).toNat := by
  rw [mapperOf_eq_append, BitVec.toNat_append, ← Nat.shiftLeft_add_eq_or_of_lt (mapperLo f6).isLt,
    Nat.shiftLeft_eq]
  omega

/-- Settles O28: each named bit is a digit of its byte in base 2, and a byte is its two nibbles. -/
theorem flagFieldsAreTheNamedBits : Obligations.FlagFieldsAreTheNamedBits := by
  refine ⟨fun f6 => ?_, fun f7 => ⟨?_, mapperHi_toNat f7⟩, fun f9 => ?_, mapperOf_toNat⟩
  · simp only [mirroring, battery, trainer, fourScreen, toNat_getLsbD, mapperLo_toNat]
    omega
  · rw [vsSystem, toNat_getLsbD, pow_zero, Nat.div_one]
  · rw [pal, toNat_getLsbD, pow_zero, Nat.div_one]

/-! ### The invariant and the waiting list -/

/-- Settles O2: with no ROM and every register 0 the clauses hold, and MAPPER's formula gives 0. -/
theorem invariantHoldsAtReset : Obligations.InvariantHoldsAtReset :=
  fun _ hp => State.resetWith_inv hp

/-- Settles O3: of the five things a command that runs can do, two change the ROM, a tile write,
which stays off a headered ROM's header bytes, and a PARSE, which writes header and ROM together. -/
theorem everyStepKeepsTheInvariant : Obligations.EveryStepKeepsTheInvariant :=
  fun _ _ h hs => step_keeps_inv h hs

/-- Settles O5: taking the command off the list leaves the parameters it is checked against. -/
theorem stepRunsTheDecodedCommand : Obligations.StepRunsTheDecodedCommand :=
  fun _ _ _ _ hp hd hw => (step_cons hp).trans (issue_instr hd hw)

/-- Settles O7: `step` takes the command off, and no command writes the list or the parameters. -/
theorem stepTakesOneCommand : Obligations.StepTakesOneCommand :=
  fun _ _ hs => step_takes_one_command hs

/-! ### ROM_VALID (R23, R233) -/

/-- ROM_VALID after a command: only a PARSE that ends with OK writes it, and it writes 1. -/
theorem exec_romValid {i : Instr} (h : exec i s = .next t) :
    t.romValid = s.romValid ∨
    ∃ buf, i = .parse buf ∧ t.romValid = true ∧ t.response = some (.ok .none) := by
  rcases exec_cases h with ⟨_, -, rfl⟩ | ⟨_, rfl⟩ | ⟨_, _, -, -, -, -, _, -, rfl⟩ |
    ⟨buf, hi, -, -, rfl⟩ | ⟨buf, hi, -, rfl⟩
  · exact .inl rfl
  · exact .inl rfl
  · exact .inl rfl
  · exact .inr ⟨buf, hi, rfl, rfl⟩
  · exact .inr ⟨buf, hi, rfl, rfl⟩

theorem step_romValid (h : step s = .next t) :
    t.romValid = s.romValid ∨
    ∃ c rest buf, s.program = c :: rest ∧ decode c = .instr (.parse buf) ∧ t.romValid = true ∧
      t.response = some (.ok .none) := by
  rcases step_cases h with ⟨-, rfl⟩ | ⟨c, rest, hp, ⟨-, rfl⟩ | ⟨i, hd, -, hx⟩⟩
  · exact .inl rfl
  · exact .inl rfl
  · rcases exec_romValid hx with hv | ⟨buf, rfl, hv, hr⟩
    · exact .inl hv
    · exact .inr ⟨c, rest, buf, hp, hd, hv, hr⟩

/-- Settles O44: a step leaves ROM_VALID as it was or is a PARSE that set it. -/
theorem onceInstalledTheRomStays : Obligations.OnceInstalledTheRomStays := by
  intro s t hs
  rcases step_romValid hs with hv | ⟨c, rest, buf, hp, hd, hv, hr⟩
  · exact ⟨fun h => hv.trans h, fun h ht => absurd (hv.symm.trans ht) (by simp [h])⟩
  · exact ⟨fun _ => hv, fun _ _ => ⟨c, rest, buf, hp, hd, hr⟩⟩

/-! ### ROM bytes 0..15 (R37, R236) -/

/-- A command other than PARSE that changes a byte is a WRITE_TILE whose span holds its address. -/
theorem exec_changes_byte {i : Instr} {a : Nat} (h : exec i s = .next t)
    (hi : ∀ buf, i ≠ .parse buf) (hne : Memory.read t.rom a ≠ Memory.read s.rom a) :
    ∃ n flat m, i = .writeTile n flat ∧ t = (s.withRom m).withResponse (.ok .none) ∧
      tileOff s n ≤ a ∧ a < tileOff s n + 16 := by
  rcases exec_cases h with ⟨_, -, rfl⟩ | ⟨_, rfl⟩ | ⟨n, flat, hw, -, -, -, m, rfl, rfl⟩ |
    ⟨buf, hp, -⟩ | ⟨buf, hp, -⟩
  · exact absurd rfl hne
  · exact absurd rfl hne
  · refine ⟨n, flat, _, hw, rfl, ?_⟩
    by_contra hout
    refine hne (Memory.read_writeSpan_outside _ _ _ _ ?_)
    rw [encodeTile_length]
    omega
  · exact absurd hp (hi buf)
  · exact absurd hp (hi buf)

/-- A tile span that starts below 16 is tile 0 of a headerless ROM, as a header makes
DATA_OFFSET 16. -/
theorem State.Inv.tileOff_lt_sixteen (h : s.Inv) {n : Nat} (ho : tileOff s n < 16) :
    s.headerPresent = false ∧ s.dataOffset = 0 ∧ n = 0 := by
  rw [tileOff] at ho
  cases hp : s.headerPresent with
  | true => obtain ⟨-, hd, -⟩ := h.headerPresent hp; omega
  | false => exact ⟨rfl, (h.headerAbsent hp).1, by omega⟩

/-- Settles O45: the changed byte lies in the written span, so the span starts below 16. -/
theorem headerBytesChangeOnlyWithoutHeader : Obligations.HeaderBytesChangeOnlyWithoutHeader := by
  intro i s t a h hx hi ha hne
  obtain ⟨n, flat, m, rfl, rfl, hle, -⟩ := exec_changes_byte hx hi hne
  obtain ⟨hp, hd, rfl⟩ := h.tileOff_lt_sixteen (hle.trans_lt ha)
  exact ⟨⟨flat, rfl⟩, hp, hp, hd⟩

/-! ### States a host cannot tell apart: what agrees -/

theorem State.Alike.program (h : s.Alike t) : s.program = t.program := h.1
theorem State.Alike.params (h : s.Alike t) : s.params = t.params := h.2.1
theorem State.Alike.romValid (h : s.Alike t) : s.romValid = t.romValid := h.2.2.1

theorem State.Alike.installed (h : s.Alike t) (hv : s.romValid = true) :
    s.rom = t.rom ∧ s.romLength = t.romLength ∧ s.dataOffset = t.dataOffset ∧
      s.headerPresent = t.headerPresent := by
  obtain ⟨-, -, -, hrom⟩ := h
  obtain ⟨hm, hl, hd, hp, -⟩ := hrom hv
  exact ⟨hm, hl, hd, hp⟩

theorem State.Alike.header (h : s.Alike t) (hv : s.romValid = true) (hp : s.headerPresent = true) :
    s.prgRomSize = t.prgRomSize ∧ s.chrRomSize = t.chrRomSize ∧ s.flags6 = t.flags6 ∧
      s.flags7 = t.flags7 ∧ s.prgRamSize = t.prgRamSize ∧ s.flags9 = t.flags9 ∧
      s.flags10 = t.flags10 ∧ s.mapper = t.mapper := by
  obtain ⟨-, -, -, hrom⟩ := h
  obtain ⟨-, -, -, -, hhdr⟩ := hrom hv
  exact hhdr hp

theorem State.Alike.tileOff_eq (h : s.Alike t) (hv : s.romValid = true) (n : Nat) :
    tileOff s n = tileOff t n := by
  obtain ⟨-, -, hd, -⟩ := h.installed hv
  rw [tileOff, tileOff, hd]

theorem State.Alike.inRange_eq (h : s.Alike t) (hv : s.romValid = true) (off : Nat) :
    inRange s off = inRange t off := by
  obtain ⟨-, hl, -⟩ := h.installed hv
  rw [inRange, inRange, hl]

/-- A register reads the same where READ_REG shows it (R35's two columns). -/
theorem State.Alike.regValue_eq (h : s.Alike t) {g : Reg}
    (hrom : regNeedsRom g = true → s.romValid = true)
    (hhdr : regNeedsHeader g = true → s.headerPresent = true) : regValue g s = regValue g t := by
  cases g with
  | romValid => rw [regValue, regValue, h.romValid]
  | romLength | dataOffset | headerPresent =>
    obtain ⟨-, hl, hd, hp⟩ := h.installed (hrom rfl)
    simp only [regValue, hl, hd, hp]
  | prgRomSize | chrRomSize | flags6 | flags7 | prgRamSize | flags9 | flags10 | mapper =>
    obtain ⟨h4, h5, h6, h7, h8, h9, hA, hB⟩ := h.header (hrom rfl) (hhdr rfl)
    simp only [regValue, h4, h5, h6, h7, h8, h9, hA, hB]

/-! ### Updates that keep them alike -/

theorem State.Alike.withResponse (h : s.Alike t) (r : Response) :
    (s.withResponse r).Alike (t.withResponse r) := h

theorem State.Alike.withoutResponse (h : s.Alike t) :
    s.withoutResponse.Alike t.withoutResponse := h

theorem State.Alike.withProgram (h : s.Alike t) (cs : List Command) :
    (s.withProgram cs).Alike (t.withProgram cs) := ⟨rfl, h.2⟩

theorem State.Alike.withRom (h : s.Alike t) (m : Memory) : (s.withRom m).Alike (t.withRom m) := by
  obtain ⟨hc, hpar, hv, hrom⟩ := h
  exact ⟨hc, hpar, hv, fun hs => ⟨rfl, (hrom hs).2⟩⟩

theorem State.Alike.installHeadered (h : s.Alike t) (buf : List Byte) :
    ((s.installRom buf).writeHeader buf).Alike ((t.installRom buf).writeHeader buf) :=
  ⟨h.program, h.params, rfl, fun _ => ⟨rfl, rfl, rfl, rfl, fun _ =>
    ⟨rfl, rfl, rfl, rfl, rfl, rfl, rfl, rfl⟩⟩⟩

theorem State.Alike.installHeaderless (h : s.Alike t) (buf : List Byte) :
    ((s.installRom buf).clearHeader).Alike ((t.installRom buf).clearHeader) :=
  ⟨h.program, h.params, rfl, fun _ => ⟨rfl, rfl, rfl, rfl, fun hp => nomatch hp⟩⟩

theorem State.Alike.finish (h : s.Alike t) (o : Output) :
    OutcomesAlike (finish o s) (finish o t) := ⟨h.withResponse _, rfl⟩

theorem State.Alike.raise (h : s.Alike t) (e : ErrorCause) :
    OutcomesAlike (raise e s) (raise e t) := ⟨h.withResponse _, rfl⟩

/-! ### Commands that keep them alike: a branch that looks at a register stands behind NoRom or
NoHeader, or else it looks at ROM_VALID -/

theorem execParse_alike (h : s.Alike t) (buf : List Byte) :
    OutcomesAlike (execParse buf s) (execParse buf t) := by
  rw [execParse, execParse]
  split
  · split
    · exact h.raise _
    · exact (h.installHeadered buf).finish _
  · exact (h.installHeaderless buf).finish _

theorem execDecode_alike (h : s.Alike t) (enc : List Byte) :
    OutcomesAlike (execDecode enc s) (execDecode enc t) := by
  rw [execDecode, execDecode]
  split
  · exact h.raise _
  · exact h.finish _

theorem execEncode_alike (h : s.Alike t) (flat : List Nat) :
    OutcomesAlike (execEncode flat s) (execEncode flat t) := by
  rw [execEncode, execEncode]
  split
  · exact h.raise _
  · exact h.finish _

/-- A command whose first check is NoRom: only its rest, with a ROM installed, is to be compared. -/
theorem State.Alike.orNoRom {x y : Host.Outcome State Fault Refusal} (h : s.Alike t)
    (hxy : s.romValid = true → OutcomesAlike x y) :
    OutcomesAlike (if !s.romValid then Machine.raise .noRom s else x)
      (if !t.romValid then Machine.raise .noRom t else y) := by
  rw [← h.romValid]
  cases hv : s.romValid with
  | false => exact h.raise _
  | true => exact hxy hv

theorem execTileOffset_alike (h : s.Alike t) (n : Nat) :
    OutcomesAlike (execTileOffset n s) (execTileOffset n t) := by
  rw [execTileOffset, execTileOffset]
  refine h.orNoRom fun hv => ?_
  rw [h.tileOff_eq hv]
  exact h.finish _

theorem execReadTile_alike (h : s.Alike t) (n : Nat) :
    OutcomesAlike (execReadTile n s) (execReadTile n t) := by
  rw [execReadTile, execReadTile]
  refine h.orNoRom fun hv => ?_
  obtain ⟨hm, -⟩ := h.installed hv
  rw [h.inRange_eq hv, h.tileOff_eq hv, hm]
  split
  · exact h.raise _
  · split
    · exact h.finish _
    · rfl

theorem execWriteTile_alike (h : s.Alike t) (n : Nat) (flat : List Nat) :
    OutcomesAlike (execWriteTile n flat s) (execWriteTile n flat t) := by
  rw [execWriteTile, execWriteTile]
  refine h.orNoRom fun hv => ?_
  obtain ⟨hm, -⟩ := h.installed hv
  rw [h.inRange_eq hv, h.tileOff_eq hv, hm]
  split
  · exact h.raise _
  · split
    · exact h.raise _
    · split
      · exact (h.withRom _).finish _
      · rfl

theorem execReadRom_alike (h : s.Alike t) (a : Nat) :
    OutcomesAlike (execReadRom a s) (execReadRom a t) := by
  rw [execReadRom, execReadRom]
  refine h.orNoRom fun hv => ?_
  obtain ⟨hm, hl, -⟩ := h.installed hv
  rw [hm, hl]
  split
  · exact h.raise _
  · split
    · exact h.finish _
    · rfl

theorem regNeedsRom_of_regNeedsHeader {g : Reg} (h : regNeedsHeader g = true) :
    regNeedsRom g = true := by
  rw [regNeedsHeader_iff] at h
  rw [regNeedsRom_iff]
  omega

theorem execReadReg_alike (h : s.Alike t) (r : Nat) :
    OutcomesAlike (execReadReg r s) (execReadReg r t) := by
  rw [execReadReg, execReadReg, ← h.romValid]
  split
  · exact h.raise _
  · rename_i g _
    split
    · exact h.raise _
    · rename_i hr
      have hrom : regNeedsRom g = true → s.romValid = true := fun hn => by simpa [hn] using hr
      have hcol : (regNeedsHeader g && !t.headerPresent) =
          (regNeedsHeader g && !s.headerPresent) := by
        cases hn : regNeedsHeader g with
        | false => rfl
        | true =>
          obtain ⟨-, -, -, hp⟩ := h.installed (hrom (regNeedsRom_of_regNeedsHeader hn))
          rw [hp]
      rw [hcol]
      split
      · exact h.raise _
      · rename_i hh
        rw [h.regValue_eq hrom fun hn => by simpa [hn] using hh]
        exact h.finish _

theorem exec_alike (h : s.Alike t) (i : Instr) : OutcomesAlike (exec i s) (exec i t) := by
  cases i with
  | parse buf => exact execParse_alike h buf
  | decode enc => exact execDecode_alike h enc
  | encode flat => exact execEncode_alike h flat
  | tileOffset n => exact execTileOffset_alike h n
  | readTile n => exact execReadTile_alike h n
  | writeTile n flat => exact execWriteTile_alike h n flat
  | readReg r => exact execReadReg_alike h r
  | readRom a => exact execReadRom_alike h a

/-- The command port looks at the parameters alone, so it decodes and refuses alike. -/
theorem issue_alike (h : s.Alike t) (c : Command) : OutcomesAlike (issue c s) (issue c t) := by
  rw [issue, issue, ← h.params]
  split
  · exact h.raise _
  · rfl
  · split
    · rfl
    · exact exec_alike h _

/-- Settles O46: alike states present the same command, and every command keeps them alike. -/
theorem unobservableRegistersNeverShow : Obligations.UnobservableRegistersNeverShow := by
  intro s t h
  cases hp : s.program with
  | nil =>
    rw [step_nil hp, step_nil (h.program ▸ hp)]
    exact ⟨h.withoutResponse, rfl⟩
  | cons c rest =>
    rw [step_cons hp, step_cons (h.program ▸ hp)]
    exact issue_alike (h.withProgram rest) c

end Sys2Proof.Machine

/-! The ROM memory (20_memory.md): its canonical form, the host's view of it, which commands write
it, and what a tile just written reads as. -/

namespace Sys2Proof.Machine

variable {s t : State}

/-! ### The canonical form (R50) -/

/-- A tile write keeps the listed addresses, and the memory PARSE installs is canonical whatever
was there before. -/
theorem exec_keeps_rom_wf {i : Instr} (h : Memory.wf s.rom = true) (hx : exec i s = .next t) :
    Memory.wf t.rom = true := by
  rcases exec_cases hx with ⟨_, -, rfl⟩ | ⟨_, rfl⟩ | ⟨_, _, -, -, -, -, _, rfl, rfl⟩ |
    ⟨buf, -, -, -, rfl⟩ | ⟨buf, -, -, rfl⟩
  · exact h
  · exact h
  · exact (Memory.wf_writeSpan _ _ _).trans h
  · exact Memory.wf_ofBytes buf
  · exact Memory.wf_ofBytes buf

/-- Settles O4: an idle step and a reserved opcode leave the ROM memory, and a command that runs
keeps it canonical. -/
theorem everyStepKeepsMemoryCanonical : Obligations.EveryStepKeepsMemoryCanonical := by
  intro s t h hs
  rcases step_cases hs with ⟨-, rfl⟩ | ⟨_, rest, -, ⟨-, rfl⟩ | ⟨i, -, -, hx⟩⟩
  · exact h
  · exact h
  · exact exec_keeps_rom_wf (s := s.withProgram rest) h hx

/-! ### The host's view (R52, R55) -/

/-- A memory of successive addresses is the one its bytes make. -/
theorem Memory.eq_ofBytesFrom_bytes {m : Memory} {a n : Nat}
    (h : Memory.addrs m = List.range' a n) : m = Memory.ofBytesFrom a (m.map Prod.snd) := by
  induction m generalizing a n with
  | nil => rfl
  | cons cell rest ih =>
    cases n with
    | zero => cases h
    | succ n =>
      rw [Memory.addrs, List.map_cons, List.range'_succ] at h
      obtain ⟨rfl, hrest⟩ := List.cons.inj h
      exact congrArg (cell :: ·) (ih hrest)

/-- Under the invariant the ROM memory is what PARSE would install from the host's view. -/
theorem State.Inv.rom_eq_ofBytes_hostView (h : s.Inv) : s.rom = Memory.ofBytes s.hostView :=
  Memory.eq_ofBytesFrom_bytes (h.romAddresses.trans List.range_eq_range')

theorem State.Inv.hostView_length (h : s.Inv) : s.hostView.length = s.romLength := by
  simpa [State.hostView] using congrArg List.length h.romAddresses

/-- Settles O18: the ROM memory holds the host's view, element a at address a. -/
theorem hostViewIsTheRomMemory : Obligations.HostViewIsTheRomMemory := by
  refine fun s h => ⟨h.hostView_length, fun a => ?_⟩
  rw [← Memory.read_ofBytes, ← h.rom_eq_ofBytes_hostView]

/-! ### A tile just written (R55, R59) -/

/-- A span written twice with the same bytes holds what it holds written once. -/
theorem Memory.writeSpan_writeSpan_same {m : Memory} (hw : Memory.wf m = true) (a : Nat)
    (vs : List Byte) :
    Memory.writeSpan (Memory.writeSpan m a vs) a vs = Memory.writeSpan m a vs := by
  refine Memory.ext_of_wf (by simpa using hw) (by simpa using hw) fun x => ?_
  by_cases hx : x < a ∨ a + vs.length ≤ x
  · exact Memory.read_writeSpan_outside _ _ _ _ hx
  · obtain ⟨k, rfl⟩ := Nat.exists_eq_add_of_le (show a ≤ x by omega)
    have hk : k < vs.length := by omega
    simp only [Memory.read_writeSpan_inside _ _ _ _ hk, Option.map_map, Function.comp_def]

/-- Settles O34: the state after the first write keeps the invariant, so the second write completes
too, and it writes the bytes that are there. -/
theorem writingATileTwiceIsWritingItOnce : Obligations.WritingATileTwiceIsWritingItOnce := by
  intro s n flat h hv hl hr
  obtain ⟨m, hm, hfirst⟩ := execWriteTile_next h hv hl hr
  have h1 : ((s.withRom m).withResponse (.ok .none)).Inv :=
    hm ▸ (h.writeTileSpan n _).withResponse _
  obtain ⟨m', hm', hsecond⟩ := execWriteTile_next (flat := flat) h1 hv hl hr
  have hsame : m' = m := by
    simp only [State.withResponse_rom, State.withRom_rom, tileOff_withResponse,
      tileOff_withRom] at hm'
    rw [hm', hm, Memory.writeSpan_writeSpan_same h.rom_wf]
  rw [hsame] at hsecond
  exact ⟨_, hfirst, hsecond⟩

/-- READ_ROM of an address that has a byte, below ROM_LENGTH. -/
theorem execReadRom_of_read {a : Nat} {b : Byte} (hv : s.romValid = true) (ha : a < s.romLength)
    (hb : Memory.read s.rom a = some b) :
    execReadRom a s = .next (s.withResponse (.ok (.result b.toNat))) := by
  simp [execReadRom, hv, ha, hb, finish]

/-- Settles O35: WRITE_TILE stores the bytes ENCODE answers, and READ_ROM answers what is stored. -/
theorem readRomSeesTheTileJustWritten : Obligations.ReadRomSeesTheTileJustWritten := by
  intro s n k flat h hv hl hr hk
  obtain ⟨m, hm, hwrite⟩ := execWriteTile_next h hv hl hr
  obtain ⟨b, hb⟩ : ∃ b, (encodeTile flat)[k]? = some b := ⟨_, List.getElem?_eq_getElem (by simpa)⟩
  have hread : Memory.read m (tileOff s n + k) = some b := by
    rw [hm, h.read_writeTileSpan flat hr hk, hb]
  have ha : tileOff s n + k < s.romLength := by omega
  exact ⟨_, _, b.toNat, hwrite, execEncode_next hl, by simp [hb], execReadRom_of_read hv ha hread⟩

/-! ### Which commands write what (10_state.md section 2, R51) -/

theorem exec_sameRegisters {i : Instr} (h : exec i s = .next t) (hi : ∀ buf, i ≠ .parse buf) :
    s.SameRegisters t := by
  rcases exec_cases h with ⟨_, -, rfl⟩ | ⟨_, rfl⟩ | ⟨_, _, -, -, -, -, m, -, rfl⟩ |
    ⟨buf, hp, -⟩ | ⟨buf, hp, -⟩
  · simp [State.SameRegisters]
  · simp [State.SameRegisters]
  · simp [State.SameRegisters]
  · exact absurd hp (hi buf)
  · exact absurd hp (hi buf)

theorem exec_rom_of_readsOnly {i : Instr} (h : exec i s = .next t) (hi : i.readsOnly = true) :
    t.rom = s.rom := by
  rcases exec_cases h with ⟨_, -, rfl⟩ | ⟨_, rfl⟩ | ⟨_, _, rfl, -⟩ | ⟨_, rfl, -⟩ | ⟨_, rfl, -⟩
  · rfl
  · rfl
  · cases hi
  · cases hi
  · cases hi

/-- Settles O43: an error or an output changes only the response port; the other two things a
command can do are a tile write, which changes only the ROM memory, and PARSE. -/
theorem onlyParseAndWriteTileWrite : Obligations.OnlyParseAndWriteTileWrite := by
  refine fun i s t h => ⟨exec_sameHost h, exec_sameRegisters h, fun hi => ?_⟩
  have hrom := exec_rom_of_readsOnly h hi
  exact ⟨fun a => by rw [hrom], hrom⟩

end Sys2Proof.Machine

/-! The command port (30_encoding.md): which ports a command's meaning is read from, the decoder and
the encoder against each other, the commands the port refuses, and the responses it can give. -/

namespace Sys2Proof

/-! ### The ports an opcode uses (R73, R74) -/

/-- The opcodes whose operand is on ARG, alone or with DATA_IN (R73). -/
@[simp] def Opcode.usesArg : Opcode → Bool
  | .parse | .decode | .encode => false
  | .tileOffset | .readTile | .writeTile | .readReg | .readRom => true

/-- The opcodes whose operand is on DATA_IN, alone or with ARG (R74). -/
@[simp] def Opcode.usesDataIn : Opcode → Bool
  | .parse | .decode | .encode | .writeTile => true
  | .tileOffset | .readTile | .readReg | .readRom => false

theorem Opcode.usesArg_iff (op : Opcode) : op.usesArg = true ↔ 4 ≤ (opcodeByte op).toNat := by
  cases op <;> decide

theorem Opcode.usesDataIn_iff (op : Opcode) :
    op.usesDataIn = true ↔ (opcodeByte op).toNat ≤ 3 ∨ (opcodeByte op).toNat = 6 := by
  cases op <;> decide

/-! ### The decoder, one equation for each row of the opcode map (R72) -/

section
variable (arg : Nat) (data : List Nat)

@[simp] theorem decode_parse :
    decode ⟨opcodeByte .parse, arg, data⟩ = decodeBytes .parse data := rfl
@[simp] theorem decode_decode :
    decode ⟨opcodeByte .decode, arg, data⟩ = decodeBytes .decode data := rfl
@[simp] theorem decode_encode :
    decode ⟨opcodeByte .encode, arg, data⟩ = .instr (.encode data) := rfl
@[simp] theorem decode_tileOffset :
    decode ⟨opcodeByte .tileOffset, arg, data⟩ = .instr (.tileOffset arg) := rfl
@[simp] theorem decode_readTile :
    decode ⟨opcodeByte .readTile, arg, data⟩ = .instr (.readTile arg) := rfl
@[simp] theorem decode_writeTile :
    decode ⟨opcodeByte .writeTile, arg, data⟩ = .instr (.writeTile arg data) := rfl
@[simp] theorem decode_readReg :
    decode ⟨opcodeByte .readReg, arg, data⟩ = .instr (.readReg arg) := rfl
@[simp] theorem decode_readRom :
    decode ⟨opcodeByte .readRom, arg, data⟩ = .instr (.readRom arg) := rfl

end

/-! ### Byte sequences on DATA_IN (R74) -/

theorem decodeBytes_of_tooWide (mk : List Byte → Instr) {data : List Nat}
    (h : ∃ v ∈ data, 255 < v) : decodeBytes mk data = .illFormed .byteElementTooWide := by
  rw [decodeBytes, (bytesOfDataIn_eq_none_iff data).mpr h]

theorem decodeBytes_map_toNat (mk : List Byte → Instr) (bs : List Byte) :
    decodeBytes mk (bs.map BitVec.toNat) = .instr (mk bs) := by
  rw [decodeBytes, bytesOfDataIn_map_toNat]

theorem exists_bytes_of_le_255 {data : List Nat} (h : ∀ v ∈ data, v ≤ 255) :
    ∃ bs : List Byte, data = bs.map BitVec.toNat := by
  cases hb : bytesOfDataIn data with
  | some bs => exact ⟨bs, (bytesOfDataIn_eq_some_iff data bs).mp hb⟩
  | none =>
    obtain ⟨v, hv, hgt⟩ := (bytesOfDataIn_eq_none_iff data).mp hb
    exact absurd (h v hv) (Nat.not_le.mpr hgt)

/-- Exactly one DATA_IN gives the instruction of a byte sequence. -/
theorem decodeBytes_eq_instr_iff {mk : List Byte → Instr} (hmk : Function.Injective mk)
    (data : List Nat) (bs : List Byte) :
    decodeBytes mk data = .instr (mk bs) ↔ data = bs.map BitVec.toNat := by
  rw [← bytesOfDataIn_eq_some_iff, decodeBytes]
  cases bytesOfDataIn data with
  | none => simp
  | some bs' => simp [hmk.eq_iff]

/-! ### The decoder and the encoder against each other -/

@[simp] theorem encode_cmd (i : Instr) : (encode i).cmd = opcodeByte i.opcode := by
  cases i <;> rfl

/-- A command reads as an instruction exactly when it agrees with the instruction's encoding on CMD
and on the ports its opcode uses. -/
theorem decode_eq_instr_iff (c : Command) (i : Instr) :
    decode c = .instr i ↔
      (encode i).cmd = c.cmd ∧ (i.opcode.usesArg = true → (encode i).arg = c.arg) ∧
        (i.opcode.usesDataIn = true → (encode i).dataIn = c.dataIn) := by
  by_cases hcmd : (encode i).cmd = c.cmd
  · obtain ⟨b, arg, data⟩ := c
    obtain rfl : (encode i).cmd = b := hcmd
    cases i with
    | parse buf =>
      have hmk : Function.Injective Instr.parse := fun _ _ h => Instr.parse.inj h
      simp [encode, Instr.opcode, decodeBytes_eq_instr_iff hmk, eq_comm]
    | decode enc =>
      have hmk : Function.Injective Instr.decode := fun _ _ h => Instr.decode.inj h
      simp [encode, Instr.opcode, decodeBytes_eq_instr_iff hmk, eq_comm]
    | encode flat => simp [encode, Instr.opcode, eq_comm]
    | tileOffset n => simp [encode, Instr.opcode, eq_comm]
    | readTile n => simp [encode, Instr.opcode, eq_comm]
    | writeTile n flat => simp [encode, Instr.opcode, eq_comm]
    | readReg r => simp [encode, Instr.opcode, eq_comm]
    | readRom a => simp [encode, Instr.opcode, eq_comm]
  · have hne : decode c ≠ .instr i := fun h =>
      hcmd ((encode_cmd i).trans (opcodeByte_of_opcodeOfByte (opcode_of_decode h)))
    exact iff_of_false hne fun h => hcmd h.1

/-- A command whose opcode uses ARG always decodes to an instruction, with that ARG in it. -/
theorem exists_instr_of_usesArg {c : Command} {op : Opcode} (hop : opcodeByte op = c.cmd)
    (hu : op.usesArg = true) :
    ∃ i, decode c = .instr i ∧ i.opcode = op ∧ (encode i).arg = c.arg := by
  obtain ⟨b, arg, data⟩ := c
  obtain rfl : opcodeByte op = b := hop
  cases op with
  | parse => cases hu
  | decode => cases hu
  | encode => cases hu
  | tileOffset => exact ⟨_, decode_tileOffset arg data, rfl, rfl⟩
  | readTile => exact ⟨_, decode_readTile arg data, rfl, rfl⟩
  | writeTile => exact ⟨_, decode_writeTile arg data, rfl, rfl⟩
  | readReg => exact ⟨_, decode_readReg arg data, rfl, rfl⟩
  | readRom => exact ⟨_, decode_readRom arg data, rfl, rfl⟩

end Sys2Proof

namespace Sys2Proof.Machine

variable {s : State}

/-- Settles O11: an encoding agrees with itself on every port. -/
theorem decodingInvertsEncoding : Obligations.DecodingInvertsEncoding :=
  fun i => (decode_eq_instr_iff (encode i) i).mpr ⟨rfl, fun _ => rfl, fun _ => rfl⟩

/-- Settles O12: the opcode, known from the CMD byte, says which ports the encoding agrees on. -/
theorem encodingInvertsDecoding : Obligations.EncodingInvertsDecoding := by
  intro c i h
  obtain ⟨hcmd, harg, hdata⟩ := (decode_eq_instr_iff c i).mp h
  rw [Opcode.usesArg_iff, ← encode_cmd, hcmd] at harg
  rw [Opcode.usesDataIn_iff, ← encode_cmd, hcmd] at hdata
  exact ⟨hcmd, harg, hdata⟩

/-- Settles O8: the equations of the decoder at the sample bytes and operands. -/
theorem commandBytesDecodeAsTheTableSays : Obligations.CommandBytesDecodeAsTheTableSays :=
  ⟨decodeBytes_map_toNat .parse [0x4E, 0xFF], decodeBytes_map_toNat .decode [0x80],
    decode_encode _ _, decode_tileOffset _ _, decode_writeTile _ _, decode_readRom _ _,
    (decode_eq_reserved_iff _).mpr (by decide)⟩

/-! ### What the command port does by what a command decodes to (R75, R76) -/

/-- A command acts only through what it decodes to. -/
theorem issue_eq_of_decode_eq {c c' : Command} (h : decode c = decode c') (s : State) :
    issue c s = issue c' s := by
  rw [issue, issue, h]

theorem step_eq_of_decode_eq {c c' : Command} (h : decode c = decode c') (s : State)
    (rest : List Command) :
    step (s.withProgram (c :: rest)) = step (s.withProgram (c' :: rest)) := by
  rw [step_cons (State.withProgram_program s _), step_cons (State.withProgram_program s _)]
  exact issue_eq_of_decode_eq h _

/-- Settles O10: the decoder does not look at the port on which the two commands differ. -/
theorem unusedOperandPortsAreIgnored : Obligations.UnusedOperandPortsAreIgnored := by
  refine fun s b arg arg' data data' rest => ⟨fun hb => ?_, fun hb => ?_⟩
  · have hd : decode ⟨b, arg, data⟩ = decode ⟨b, arg', data⟩ := by
      rcases hb with rfl | rfl | rfl <;> rfl
    exact step_eq_of_decode_eq hd s rest
  · have hd : decode ⟨b, arg, data⟩ = decode ⟨b, arg, data'⟩ := by
      rcases hb with rfl | rfl | rfl | rfl <;> rfl
    exact step_eq_of_decode_eq hd s rest

/-- Settles O9: a byte that is in no row of the map is 0 or at least 9, and no byte exceeds 0xFF. -/
theorem reservedOpcodesEndWithIllegalCommand : Obligations.ReservedOpcodesEndWithIllegalCommand := by
  refine ⟨fun c => ?_, fun s c rest hp hc => ?_⟩
  · have hbyte : c.cmd.toNat < 256 := c.cmd.isLt
    rw [decode_eq_reserved_iff]
    omega
  · rw [step_cons hp, issue_reserved ((decode_eq_reserved_iff c).mpr hc)]

/-! ### What the command port refuses (R7, R74, R137) -/

theorem fitsWidth_some_eq_false_iff (w v : Nat) : fitsWidth (some w) v = false ↔ 2 ^ w ≤ v := by
  simp [fitsWidth]

theorem fitsCapacity_some_eq_false_iff (cap n : Nat) :
    fitsCapacity (some cap) n = false ↔ cap < n := by
  simp [fitsCapacity]

/-- Pixels can be presented when all of them fit the port. -/
theorem all_fitsWidth_some_eq_false_iff (w : Nat) (flat : List Nat) :
    flat.all (fitsWidth (some w)) = false ↔ ∃ v ∈ flat, 2 ^ w ≤ v := by
  simp only [List.all_eq_false, Bool.not_eq_true, fitsWidth_some_eq_false_iff]

/-- An opcode that uses ARG looks at its width before anything else. -/
theorem illFormed?_of_argTooWide {p : Params} {i : Instr} (hu : i.opcode.usesArg = true)
    (h : fitsWidth p.argWidth (encode i).arg = false) : i.illFormed? p = some .argTooWide := by
  cases i with
  | parse => cases hu
  | decode => cases hu
  | encode => cases hu
  | tileOffset n => exact if_neg (Bool.eq_false_iff.mp h)
  | readTile n => exact if_neg (Bool.eq_false_iff.mp h)
  | writeTile n flat => exact if_pos (congrArg _ h)
  | readReg r => exact if_neg (Bool.eq_false_iff.mp h)
  | readRom a => exact if_neg (Bool.eq_false_iff.mp h)

theorem step_illFormed {c : Command} {rest : List Command} {why : IllFormed}
    (hp : s.program = c :: rest) (h : decode c = .illFormed why) :
    step s = .refused (.illFormed why) := by
  rw [step_cons hp, issue_illFormed h]

theorem step_unpresentable {c : Command} {rest : List Command} {i : Instr} {why : IllFormed}
    (hp : s.program = c :: rest) (hd : decode c = .instr i)
    (hw : i.illFormed? s.params = some why) : step s = .refused (.illFormed why) := by
  rw [step_cons hp]
  exact issue_unpresentable hd hw

/-- A CMD byte of the map's last five rows has an opcode that uses ARG. -/
theorem exists_usesArg_of_cmd {b : Byte} (hlo : 4 ≤ b.toNat) (hhi : b.toNat ≤ 8) :
    ∃ op, opcodeByte op = b ∧ op.usesArg = true := by
  cases hop : opcodeOfByte b with
  | none => rw [opcodeOfByte_eq_none_iff] at hop; omega
  | some op =>
    have hb := opcodeByte_of_opcodeOfByte hop
    exact ⟨op, hb, (Opcode.usesArg_iff op).mpr (hb ▸ hlo)⟩

/-- Settles O13: the decoder refuses a sequence that is none of bytes; the other four commands
decode to an instruction that breaks a presentation limit. -/
theorem unpresentableCommandsAreRefused : Obligations.UnpresentableCommandsAreRefused := by
  rintro s ⟨b, arg, data⟩ rest hp
  refine ⟨fun hb hv => ?elements, fun cap hcap hb hv hlen => ?capacity,
    fun w hw hlo hhi harg => ?arg, fun w hw hb hv => ?encode, fun w hw hb hv hfits => ?writeTile⟩
  case elements =>
    rcases hb with rfl | rfl
    · exact step_illFormed hp (decodeBytes_of_tooWide .parse hv)
    · exact step_illFormed hp (decodeBytes_of_tooWide .decode hv)
  case capacity =>
    obtain rfl : b = 0x01 := hb
    obtain ⟨bs, rfl⟩ : ∃ bs : List Byte, data = bs.map BitVec.toNat := exists_bytes_of_le_255 hv
    refine step_unpresentable hp (decodeBytes_map_toNat .parse bs) ?_
    have hno : fitsCapacity s.params.romCapacity bs.length = false := by
      rw [hcap, fitsCapacity_some_eq_false_iff]
      simpa using hlen
    simp [Instr.illFormed?, hno]
  case arg =>
    obtain ⟨op, hop, hu⟩ := exists_usesArg_of_cmd hlo hhi
    obtain ⟨i, hd, rfl, hi⟩ := exists_instr_of_usesArg hop hu
    refine step_unpresentable hp hd (illFormed?_of_argTooWide hu ?_)
    rw [hi, hw, fitsWidth_some_eq_false_iff]
    exact harg
  case encode =>
    obtain rfl : b = 0x03 := hb
    refine step_unpresentable hp (decode_encode arg data) ?_
    simp [Instr.illFormed?, hw, (all_fitsWidth_some_eq_false_iff w data).mpr hv]
  case writeTile =>
    obtain rfl : b = 0x06 := hb
    refine step_unpresentable hp (decode_writeTile arg data) ?_
    simp [Instr.illFormed?, hfits, hw, (all_fitsWidth_some_eq_false_iff w data).mpr hv]

/-! ### Responses (R70) -/

/-- Settles O16: an error carries no output, and a completion carries the one output it has. -/
theorem responsesCarryAtMostOneOutput : Obligations.ResponsesCarryAtMostOneOutput := by
  intro r
  cases r with
  | err e => exact ⟨fun _ => ⟨rfl, rfl⟩, .inl rfl⟩
  | ok o =>
    refine ⟨fun h => absurd rfl h, ?_⟩
    cases o with
    | none => exact .inl rfl
    | result v => exact .inr rfl
    | dataOut vs => exact .inl rfl

end Sys2Proof.Machine

/-! Program text (30_encoding.md R78, R79): the words of the two name tables, and the lines of the
eight command forms. -/

namespace Sys2Proof.Machine

/-! ### Mnemonics and register names as words -/

/-- Word characters that do not start with a digit. -/
def isWord (w : List Char) : Bool :=
  !w.isEmpty && w.all wordChar && (w.head?.bind decimalDigit).isNone

theorem readsAs_of_isWord {w : List Char} (h : isWord w = true) : ReadsAs w (.word w) := by
  cases w with
  | nil => cases h
  | cons c cs =>
    simp only [isWord, Bool.and_eq_true] at h
    obtain ⟨⟨-, hchars⟩, hdigit⟩ := h
    have hdigit : decimalDigit c = none := by simpa using hdigit
    exact ⟨by simp, List.all_eq_true.mp hchars, by simp [wordToken, hdigit]⟩

theorem readsAs_mnemonic {name : String} {op : Opcode} (h : (name, op) ∈ mnemonicTable) :
    ReadsAs name.toList (.word name.toList) := by
  have hall : ∀ e ∈ mnemonicTable, isWord e.1.toList = true := by decide
  exact readsAs_of_isWord (hall (name, op) h)

theorem readsAs_regName {name : String} {g : Reg} (h : (name, g) ∈ regNameTable) :
    ReadsAs name.toList (.word name.toList) := by
  have hall : ∀ e ∈ regNameTable, isWord e.1.toList = true := by decide
  exact readsAs_of_isWord (hall (name, g) h)

/-- No mnemonic stands in two rows: each is "exactly one opcode" (R79). -/
theorem lookupName_mnemonic {name : String} {op : Opcode} (h : (name, op) ∈ mnemonicTable) :
    lookupName name.toList mnemonicTable = some op := by
  have hall : ∀ e ∈ mnemonicTable, lookupName e.1.toList mnemonicTable = some e.2 := by decide
  exact hall (name, op) h

theorem lookupName_regName {name : String} {g : Reg} (h : (name, g) ∈ regNameTable) :
    lookupName name.toList regNameTable = some g := by
  have hall : ∀ e ∈ regNameTable, lookupName e.1.toList regNameTable = some e.2 := by decide
  exact hall (name, g) h

/-! ### The lines of each form -/

/-- The start of a line: the mnemonic and the blank after it. -/
theorem lexes_mnemonic {start name : String} {op : Opcode} (h : (name, op) ∈ mnemonicTable)
    (hs : start.toList = name.toList ++ [' ']) : Lexes start.toList [.word name.toList] := by
  rw [hs]
  exact (readsAs_mnemonic h).lexes ends_space

theorem assemble_mnemonic_number {spell : Nat → String} (h : SpellsNumbers spell)
    {start name : String} {op : Opcode} {n : Nat} {c : Command} (hm : (name, op) ∈ mnemonicTable)
    (hs : start.toList = name.toList ++ [' ']) (hc : assembleOperands op [.num n] = some c) :
    assemble (start ++ spell n) = some [c] :=
  assemble_numberLine h (readsAs_mnemonic hm) (by rw [String.toList_append, hs])
    (lookupName_mnemonic hm) hc

theorem assemble_mnemonic_sequence {spell : Nat → String} (h : SpellsNumbers spell)
    {start name : String} {op : Opcode} {terms : List SeqTerm} {c : Command}
    (hm : (name, op) ∈ mnemonicTable) (hs : start.toList = name.toList ++ [' '])
    (hc : assembleOperands op (seqTokens terms) = some c) :
    assemble (start ++ seqText spell terms) = some [c] :=
  assemble_sequenceLine h (lexes_mnemonic hm hs) String.toList_append (lookupName_mnemonic hm) hc

/-- WRITE_TILE's form, the one with two operands. -/
theorem assemble_writeTile {spell : Nat → String} (h : SpellsNumbers spell) {terms : List SeqTerm}
    (hne : terms ≠ []) (n : Nat) :
    assemble ("WRITE_TILE " ++ spell n ++ ", " ++ seqText spell terms) =
      some [⟨0x06, n, seqValue terms⟩] := by
  have hm : ("WRITE_TILE", Opcode.writeTile) ∈ mnemonicTable := by decide
  have hstart : Lexes "WRITE_TILE ".toList [.word "WRITE_TILE".toList] :=
    lexes_mnemonic hm (by simp)
  have hindex : Lexes ((spell n).toList ++ [','] ++ [' ']) [.num n, .comma] :=
    ((readsAs_spell h n).lexes ends_comma).append ends_space.lexes
  refine assemble_sequenceLine (terms := terms) h (hstart.append hindex) (by simp)
    (lookupName_mnemonic hm) ?_
  simp [assembleOperands, parseSequence_tokens hne, opcodeByte]

/-- Settles O49: PARSE, DECODE and ENCODE share the sequence form and the four that take a number the
number form. -/
theorem everyCommandHasAnAssemblerForm : Obligations.EveryCommandHasAnAssemblerForm := by
  refine fun spell h => ⟨fun terms hne => ?_, fun n => ?_⟩
  · have hseq : parseSequence (seqTokens terms) = some (seqValue terms) := parseSequence_tokens hne
    refine ⟨?_, ?_, ?_, assemble_writeTile h hne⟩
    · exact assemble_mnemonic_sequence h (name := "PARSE") (op := .parse) (by decide) (by simp)
        (by simp [assembleOperands, hseq, opcodeByte])
    · exact assemble_mnemonic_sequence h (name := "DECODE") (op := .decode) (by decide) (by simp)
        (by simp [assembleOperands, hseq, opcodeByte])
    · exact assemble_mnemonic_sequence h (name := "ENCODE") (op := .encode) (by decide) (by simp)
        (by simp [assembleOperands, hseq, opcodeByte])
  · refine ⟨?_, ?_, ?_, ?_⟩
    · exact assemble_mnemonic_number h (name := "TILE_OFFSET") (op := .tileOffset) (by decide)
        (by simp) rfl
    · exact assemble_mnemonic_number h (name := "READ_TILE") (op := .readTile) (by decide)
        (by simp) rfl
    · exact assemble_mnemonic_number h (name := "READ_REG") (op := .readReg) (by decide)
        (by simp) rfl
    · exact assemble_mnemonic_number h (name := "READ_ROM") (op := .readRom) (by decide)
        (by simp) rfl

theorem assembleOperands_regName {name : String} {g : Reg} (h : (name, g) ∈ regNameTable) :
    assembleOperands .readReg [.word name.toList] = some ⟨0x07, regNumber g, []⟩ := by
  simp [assembleOperands, lookupName_regName h, opcodeByte]

/-- READ_REG's form with a register name for the number. -/
theorem assemble_readReg_regName {name : String} {g : Reg} (h : (name, g) ∈ regNameTable) :
    assemble ("READ_REG " ++ name) = some [⟨0x07, regNumber g, []⟩] := by
  have hm : ("READ_REG", Opcode.readReg) ∈ mnemonicTable := by decide
  obtain ⟨hline, hlex⟩ : Lexes "READ_REG ".toList [.word "READ_REG".toList] :=
    lexes_mnemonic hm (by simp)
  have hname := readsAs_regName h
  refine assemble_line (w := "READ_REG".toList) (ts := [.word name.toList]) ?_ ?_
    (lookupName_mnemonic hm) (assembleOperands_regName h)
  · rw [String.toList_append, List.mem_append, not_or]
    exact ⟨hline, hname.no_newline⟩
  · rw [String.toList_append]
    exact (hlex name.toList []).trans (hname.lexLine_end _)

/-- Settles O48: R35's twelve pairs are the assembler's name table with each register's number. -/
theorem registerNamesStandForTheirNumbers : Obligations.RegisterNamesStandForTheirNumbers := by
  intro entry hentry
  obtain ⟨⟨name, g⟩, hg, rfl⟩ : ∃ e ∈ regNameTable, (e.1, regNumber e.2) = entry :=
    List.mem_map.mp hentry
  exact ⟨assemble_readReg_regName hg, assembleOperands_regName hg, rfl⟩

/-- Settles O47, by reading the four sample lines. -/
theorem assemblerReadsTheCommandForms : Obligations.AssemblerReadsTheCommandForms :=
  ⟨by decide, by decide, by decide, by decide⟩

end Sys2Proof.Machine

/-! The tile codec (40_tile_codec.md): DECODE and ENCODE as maps between 16 bytes and 64 pixels, each
inverting the other, and what either reads of one lane. -/

namespace Sys2Proof.Machine

variable {s : State}

/-! ### The codec commands by the length of their operand (R101, R102) -/

theorem execDecode_wrongLength {enc : List Byte} (hl : enc.length ≠ 16) :
    execDecode enc s = .next (s.withResponse (.err .invalidInputSize)) := by
  rw [execDecode, if_pos hl]; rfl

theorem execEncode_wrongLength {flat : List Nat} (hl : flat.length ≠ 64) :
    execEncode flat s = .next (s.withResponse (.err .invalidInputSize)) := by
  rw [execEncode, if_pos hl]; rfl

/-! ### Elements of the two tile forms -/

/-- A sequence of 16 elements is its two planes of 8 (R53). -/
theorem eq_of_planes_eq {α : Type} {l m : List α} (hl : l.length = 16) (hm : m.length = 16)
    (h0 : ∀ y < 8, l[y]? = m[y]?) (h1 : ∀ y < 8, l[8 + y]? = m[8 + y]?) : l = m := by
  refine List.ext_getElem? fun i => ?_
  rcases Nat.lt_or_ge i 8 with hi | hi
  · exact h0 i hi
  rcases Nat.lt_or_ge i 16 with hi' | hi'
  · obtain ⟨y, rfl⟩ := Nat.exists_eq_add_of_le hi
    exact h1 y (by omega)
  · rw [List.getElem?_eq_none (by omega), List.getElem?_eq_none (by omega)]

theorem decodeTile_getD (enc : List Byte) (y x : Nat) (hy : y < 8) (hx : x < 8) :
    (decodeTile enc).getD (y * 8 + x) 0 = decodePixel enc y x := by
  rw [List.getD_eq_getElem?_getD, decodeTile_pixel _ _ _ hy hx, Option.getD_some]

theorem decodePixel_mod_two (enc : List Byte) (y x : Nat) :
    decodePixel enc y x % 2 = bit (byteAt enc y) (7 - x) := by
  have h0 := bit_lt_two (byteAt enc y) (7 - x)
  rw [decodePixel_eq]; omega

theorem decodePixel_div_two_mod_two (enc : List Byte) (y x : Nat) :
    decodePixel enc y x / 2 % 2 = bit (byteAt enc (8 + y)) (7 - x) := by
  have h0 := bit_lt_two (byteAt enc y) (7 - x)
  have h1 := bit_lt_two (byteAt enc (8 + y)) (7 - x)
  rw [decodePixel_eq]; omega

/-! ### The two maps against each other (R104, R105) -/

theorem plane0Byte_decodeTile (enc : List Byte) (y : Nat) (hy : y < 8) :
    plane0Byte (decodeTile enc) y = byteAt enc y :=
  byte_ext_bits fun x hx => by
    rw [bit_plane0Byte _ _ _ hx, decodeTile_getD _ _ _ hy hx, decodePixel_mod_two]

theorem plane1Byte_decodeTile (enc : List Byte) (y : Nat) (hy : y < 8) :
    plane1Byte (decodeTile enc) y = byteAt enc (8 + y) :=
  byte_ext_bits fun x hx => by
    rw [bit_plane1Byte _ _ _ hx, decodeTile_getD _ _ _ hy hx, decodePixel_div_two_mod_two]

/-- Encoding what 16 bytes decode to gives the 16 bytes. -/
theorem encodeTile_decodeTile {enc : List Byte} (hl : enc.length = 16) :
    encodeTile (decodeTile enc) = enc := by
  refine eq_of_planes_eq (encodeTile_length _) hl (fun y hy => ?_) fun y hy => ?_
  · rw [encodeTile_plane0 _ _ hy, plane0Byte_decodeTile _ _ hy, getElem?_eq_byteAt (by omega)]
  · rw [encodeTile_plane1 _ _ hy, plane1Byte_decodeTile _ _ hy, getElem?_eq_byteAt (by omega)]

/-- Decoding what 64 pixels encode to leaves the low two bits of each. -/
theorem decodeTile_encodeTile {flat : List Nat} (hl : flat.length = 64) :
    decodeTile (encodeTile flat) = flat.map (· % 4) := by
  refine List.ext_getElem (by simp [hl]) fun i hi _ => ?_
  rw [decodeTile_length] at hi
  have hpixel := decodePixel_encodeTile flat (i / 8) (i % 8) (by omega) (by omega)
  rw [Nat.div_add_mod'] at hpixel
  simp [decodeTile, hpixel, hl, hi]

theorem map_mod_four_of_lt {flat : List Nat} (h : ∀ v ∈ flat, v < 4) : flat.map (· % 4) = flat :=
  (List.map_congr_left fun v hv => Nat.mod_eq_of_lt (h v hv)).trans (List.map_id flat)

/-- Encoding looks at no more than the low two bits of a pixel. -/
theorem encodeTile_map_mod_four {flat : List Nat} (hl : flat.length = 64) :
    encodeTile (flat.map (· % 4)) = encodeTile flat := by
  rw [← decodeTile_encodeTile hl, encodeTile_decodeTile (encodeTile_length flat)]

/-- DECODE of ENCODE's bytes answers the pixels modulo 4. -/
theorem execDecode_encodeTile {flat : List Nat} (hl : flat.length = 64) :
    execDecode (encodeTile flat) s =
      .next (s.withResponse (.ok (.dataOut (flat.map (· % 4))))) := by
  rw [execDecode_next (encodeTile_length flat), decodeTile_encodeTile hl]

/-- Settles O22: each map inverts the other, and pixels below 4 are their own low two bits. -/
theorem codecRoundTrips : Obligations.CodecRoundTrips := by
  refine ⟨fun s t hl hlt => ⟨_, execEncode_next hl, ?_⟩,
    fun s b hl => ⟨_, execDecode_next hl, ?_⟩⟩
  · exact (execDecode_encodeTile hl).trans (by rw [map_mod_four_of_lt hlt])
  · exact (execEncode_next (decodeTile_length b)).trans (by rw [encodeTile_decodeTile hl])

/-- Settles O23: tiles that agree modulo 4 have the bytes of their common reduction. -/
theorem outOfRangePixelsKeepTheirLowBits : Obligations.OutOfRangePixelsKeepTheirLowBits := by
  refine ⟨fun s t hl => ⟨_, execEncode_next hl, execDecode_encodeTile hl⟩,
    fun s t u ht hu hmod => ?_⟩
  have henc : encodeTile t = encodeTile u := by
    rw [← encodeTile_map_mod_four ht, hmod, encodeTile_map_mod_four hu]
  exact (execEncode_next ht).trans (henc ▸ (execEncode_next hu).symm)

/-! ### The commands in R107's closed forms -/

/-- Settles O19: at length 16 the answer is `decodeTile`, whose pixels have R107's closed form. -/
theorem decodeCommandFollowsItsRule : Obligations.DecodeCommandFollowsItsRule := by
  refine fun s enc => ⟨fun _ => decodeBytes_map_toNat .decode enc, execDecode_wrongLength,
    fun hl => ⟨_, execDecode_next hl, decodeTile_length enc,
      fun v hv => Nat.le_of_lt_succ (decodeTile_lt enc v hv), fun y hy x hx => ?_⟩⟩
  refine ⟨_, _, getElem?_eq_byteAt (by omega), getElem?_eq_byteAt (by omega), ?_⟩
  rw [decodeTile_pixel _ _ _ hy hx, decodePixel_eq, closedPixel_eq]

theorem encodeTile_map_toNat_plane0 (flat : List Nat) (y : Nat) (hy : y < 8) :
    ((encodeTile flat).map BitVec.toNat)[y]? = some (closedPlane0 flat y) := by
  rw [List.getElem?_map, encodeTile_plane0 _ _ hy, Option.map_some, plane0Byte_toNat]

theorem encodeTile_map_toNat_plane1 (flat : List Nat) (y : Nat) (hy : y < 8) :
    ((encodeTile flat).map BitVec.toNat)[8 + y]? = some (closedPlane1 flat y) := by
  rw [List.getElem?_map, encodeTile_plane1 _ _ hy, Option.map_some, plane1Byte_toNat]

theorem map_toNat_le_255 (bs : List Byte) : ∀ v ∈ bs.map BitVec.toNat, v ≤ 255 := by
  intro v hv
  obtain ⟨b, -, rfl⟩ := List.mem_map.mp hv
  exact Nat.le_of_lt_succ b.isLt

/-- Settles O20: at length 64 the answer is `encodeTile`, whose bytes have R107's closed forms. -/
theorem encodeCommandFollowsItsRule : Obligations.EncodeCommandFollowsItsRule :=
  fun s flat => ⟨fun arg => decode_encode arg flat, execEncode_wrongLength,
    fun hl => ⟨_, execEncode_next hl, by simp, map_toNat_le_255 _, fun y hy =>
      ⟨encodeTile_map_toNat_plane0 flat y hy, encodeTile_map_toNat_plane1 flat y hy⟩⟩⟩

/-! ### One lane (R103, R106) -/

/-- Settles O21: a decoded pixel is made of the lane's two bits, and those two bits of an encoded
tile are the digits of the pixel's value modulo 4. -/
theorem lanesAreIndependent : Obligations.LanesAreIndependent := by
  refine ⟨fun enc enc' y x hl hl' hy hx h0 h1 s =>
      ⟨_, _, execDecode_next hl, execDecode_next hl', ?_⟩,
    fun flat flat' y x hl hl' hy hx hmod s =>
      ⟨_, _, execEncode_next hl, execEncode_next hl', ?_, ?_⟩⟩
  · rw [decodeTile_pixel _ _ _ hy hx, decodeTile_pixel _ _ _ hy hx, decodePixel, decodePixel,
      h0, h1]
  · rw [byteAt_encodeTile_plane0 _ _ hy, byteAt_encodeTile_plane0 _ _ hy, bit_plane0Byte _ _ _ hx,
      bit_plane0Byte _ _ _ hx]
    omega
  · rw [byteAt_encodeTile_plane1 _ _ hy, byteAt_encodeTile_plane1 _ _ hy, bit_plane1Byte _ _ _ hx,
      bit_plane1Byte _ _ _ hx]
    omega

theorem getElem?_set_replicate_zero {n i : Nat} (hi : i < n) (k v : Nat) :
    ((List.replicate n 0).set k v)[i]? = some (if i = k then v else 0) := by
  rw [List.getElem?_eq_getElem (by simpa using hi), List.getElem_set, List.getElem_replicate]
  simp only [eq_comm]

/-- The tile that is 0 but for value v in row y and column x. -/
def onePixel (y x v : Nat) : List Nat := (List.replicate 64 0).set (y * 8 + x) v

section
variable {y x r : Nat} (hx : x < 8) (hr : r < 8) (v : Nat)
include hx hr

theorem onePixel_getD {c : Nat} (hc : c < 8) :
    (onePixel y x v).getD (r * 8 + c) 0 = if r = y ∧ c = x then v else 0 := by
  have hlane : r * 8 + c = y * 8 + x ↔ r = y ∧ c = x := by omega
  rw [onePixel, List.getD_eq_getElem?_getD, getElem?_set_replicate_zero (by omega),
    Option.getD_some]
  simp only [hlane]

/-- A row's sum over one plane, `g` the plane's bit of a pixel, has at most the one pixel's term. -/
theorem onePixel_rowSum {g : Nat → Nat} (hg : g 0 = 0) :
    ∑ c ∈ Finset.range 8, g ((onePixel y x v).getD (r * 8 + c) 0) * 2 ^ (7 - c) =
      if r = y then g v * 2 ^ (7 - x) else 0 := by
  rw [Finset.sum_eq_single_of_mem x (Finset.mem_range.mpr hx)]
  · rw [onePixel_getD hx hr v hx]
    by_cases hry : r = y <;> simp [hry, hg]
  · intro c hc hne
    rw [onePixel_getD hx hr v (Finset.mem_range.mp hc), if_neg fun h => hne h.2, hg, Nat.zero_mul]

theorem closedPlane0_onePixel :
    closedPlane0 (onePixel y x v) r = if r = y then v % 2 * 2 ^ (7 - x) else 0 :=
  onePixel_rowSum hx hr v (g := (· % 2)) rfl

theorem closedPlane1_onePixel (hv : v < 4) :
    closedPlane1 (onePixel y x v) r = if r = y then v / 2 * 2 ^ (7 - x) else 0 := by
  have hdigit : v / 2 % 2 = v / 2 := by omega
  rw [← hdigit]
  exact onePixel_rowSum hx hr v (g := (· / 2 % 2)) rfl

end

/-- Settles O24: the row sums of both planes leave the one pixel's term in row y and nothing in the
other rows. -/
theorem onePixelSetsItsOwnBitPositions : Obligations.OnePixelSetsItsOwnBitPositions := by
  refine fun s y x v hy hx hv =>
    ⟨_, execEncode_next (flat := onePixel y x v) (by simp [onePixel]), ?_⟩
  refine eq_of_planes_eq (by simp) (by simp) (fun r hr => ?_) fun r hr => ?_
  · rw [encodeTile_map_toNat_plane0 _ _ hr, closedPlane0_onePixel hx hr,
      List.getElem?_set_ne (by omega), getElem?_set_replicate_zero (by omega)]
  · rw [encodeTile_map_toNat_plane1 _ _ hr, closedPlane1_onePixel hx hr v hv,
      List.set_comm _ _ (by omega), List.getElem?_set_ne (by omega),
      getElem?_set_replicate_zero (by omega)]
    simp only [Nat.add_left_cancel_iff]

end Sys2Proof.Machine

/-! The ROM container (41_rom_container.md): what PARSE installs, and the two things its result does
not depend on, the ROM installed before and the buffer's bytes after byte 10. -/

namespace Sys2Proof.Machine

variable {s t : State}

/-! ### PARSE's three endings (R130, R136) -/

theorem execParse_malformed {buf : List Byte} (hm : hasMagic buf = true) (hl : buf.length < 16) :
    execParse buf s = .next (s.withResponse (.err .malformedHeader)) := by
  rw [execParse, if_pos hm, if_pos hl]; rfl

theorem hasMagic_eq_false_iff (buf : List Byte) :
    hasMagic buf = false ↔ buf.take 4 ≠ [0x4E, 0x45, 0x53, 0x1A] := by
  rw [← Bool.not_eq_true, hasMagic_iff]

/-! ### What a PARSE that succeeds leaves (R52, R133) -/

/-- The host sees the installed buffer. -/
theorem hostView_of_rom_eq_ofBytes {buf : List Byte} (h : s.rom = Memory.ofBytes buf) :
    s.hostView = buf := by
  rw [State.hostView, h]; exact Memory.bytes_ofBytesFrom 0 buf

theorem mapperOf_toNat_eq_div (f6 f7 : Byte) :
    (mapperOf f6 f7).toNat = f6.toNat / 16 + 16 * (f7.toNat / 16) := by
  rw [mapperOf_toNat, mapperLo_toNat, mapperHi_toNat]

/-- Settles O25: the magic and the length choose the ending; in both that succeed the memory is the
buffer's bytes in order, and a headered buffer is long enough to have all its header bytes. -/
theorem parseCommandFollowsItsRule : Obligations.ParseCommandFollowsItsRule := by
  refine fun s buf => ⟨fun _ => decodeBytes_map_toNat .parse buf,
    fun hm hl => execParse_malformed ((hasMagic_iff buf).mpr hm) hl, fun hm hl => ?_, fun hm => ?_⟩
  · have byte (k : Nat) (hk : k < 16) : buf[k]? = some (byteAt buf k) :=
      getElem?_eq_byteAt (by omega)
    exact ⟨_, execParse_header ((hasMagic_iff buf).mpr hm) hl, rfl, ⟨rfl, rfl⟩,
      Memory.read_ofBytes buf, hostView_of_rom_eq_ofBytes rfl, rfl, rfl, rfl, rfl,
      byte 4 (by omega), byte 5 (by omega), byte 6 (by omega), byte 7 (by omega),
      byte 8 (by omega), byte 9 (by omega), byte 10 (by omega), mapperOf_toNat_eq_div _ _⟩
  · exact ⟨_, execParse_headerless ((hasMagic_eq_false_iff buf).mpr hm), rfl, ⟨rfl, rfl⟩,
      Memory.read_ofBytes buf, hostView_of_rom_eq_ofBytes rfl, rfl, rfl, rfl, rfl,
      rfl, rfl, rfl, rfl, rfl, rfl, rfl, rfl⟩

/-! ### The ROM before (R137) -/

/-- A buffer that is installed overwrites every field but the host's. -/
theorem execParse_eq_of_sameHost {buf : List Byte} (h : s.SameHost t)
    (hb : hasMagic buf = false ∨ 16 ≤ buf.length) : execParse buf s = execParse buf t := by
  obtain ⟨hprog, hparams⟩ := h
  cases hm : hasMagic buf with
  | false =>
    rw [execParse_headerless hm, execParse_headerless hm]
    simp only [State.withResponse, State.clearHeader, State.installRom, hprog, hparams]
  | true =>
    have hl : 16 ≤ buf.length := by simpa [hm] using hb
    rw [execParse_header hm hl, execParse_header hm hl]
    simp only [State.withResponse, State.writeHeader, State.installRom, hprog, hparams]

/-- Settles O26: a PARSE that answers OK took one of the two endings that install the buffer. -/
theorem parseForgetsThePreviousRom : Obligations.ParseForgetsThePreviousRom := by
  intro s t s' buf hprog hparams hs hok
  have hb : hasMagic buf = false ∨ 16 ≤ buf.length := by
    rcases execParse_cases hs with ⟨-, -, rfl⟩ | ⟨-, hl, -⟩ | ⟨hm, -⟩
    · cases hok
    · exact .inr hl
    · exact .inl hm
  exact (execParse_eq_of_sameHost ⟨hprog.symm, hparams.symm⟩ hb).symm.trans hs

/-! ### The bytes read (R134) -/

theorem byteAt_congr {buf buf' : List Byte} {k : Nat} (h : buf[k]? = buf'[k]?) :
    byteAt buf k = byteAt buf' k := by
  rw [byteAt, byteAt, List.getD_eq_getElem?_getD, List.getD_eq_getElem?_getD, h]

/-- HasMagic reads bytes 0..3 alone. -/
theorem hasMagic_congr {buf buf' : List Byte} (h : ∀ k < 4, buf[k]? = buf'[k]?) :
    hasMagic buf = hasMagic buf' := by
  have htake : buf.take 4 = buf'.take 4 := List.ext_getElem? fun k => by
    rw [List.getElem?_take, List.getElem?_take]
    split
    · exact h k ‹_›
    · rfl
  rw [Bool.eq_iff_iff, hasMagic_iff, hasMagic_iff, htake]

/-- The header registers are bytes 4..10 and MAPPER, which is made of two of them. -/
theorem sameRegisters_writeHeader (s : State) {buf buf' : List Byte}
    (hlen : buf.length = buf'.length)
    (h : ∀ k < 11, buf[k]? = buf'[k]?) :
    ((s.installRom buf).writeHeader buf).SameRegisters ((s.installRom buf').writeHeader buf') := by
  have byte (k : Nat) (hk : k < 11) : byteAt buf' k = byteAt buf k := (byteAt_congr (h k hk)).symm
  exact ⟨rfl, hlen.symm, rfl, rfl, byte 4 (by omega), byte 5 (by omega), byte 6 (by omega),
    byte 7 (by omega), byte 8 (by omega), byte 9 (by omega), byte 10 (by omega),
    congrArg₂ mapperOf (byte 6 (by omega)) (byte 7 (by omega))⟩

theorem sameRegisters_clearHeader (s : State) {buf buf' : List Byte}
    (hlen : buf.length = buf'.length) :
    ((s.installRom buf).clearHeader).SameRegisters ((s.installRom buf').clearHeader) :=
  ⟨rfl, hlen.symm, rfl, rfl, rfl, rfl, rfl, rfl, rfl, rfl, rfl, rfl⟩

/-- Settles O27: bytes 0..3 and the length choose the same ending for both buffers, and bytes 4..10
give the same header registers. -/
theorem parseReadsOnlyBytesZeroToTen : Obligations.ParseReadsOnlyBytesZeroToTen := by
  intro s buf buf' hlen h
  have hmagic : hasMagic buf = hasMagic buf' := hasMagic_congr fun k hk => h k (by omega)
  cases hm : hasMagic buf with
  | false =>
    exact ⟨_, _, execParse_headerless hm, execParse_headerless (hmagic ▸ hm),
      sameRegisters_clearHeader s hlen, rfl⟩
  | true =>
    rcases Nat.lt_or_ge buf.length 16 with hl | hl
    · exact ⟨_, _, execParse_malformed hm hl, execParse_malformed (hmagic ▸ hm) (hlen ▸ hl),
        by simp [State.SameRegisters], rfl⟩
    · exact ⟨_, _, execParse_header hm hl, execParse_header (hmagic ▸ hm) (hlen ▸ hl),
        sameRegisters_writeHeader s hlen h, rfl⟩

end Sys2Proof.Machine

/-! The Tile Access Layer (42_tile_access.md): the five commands by the branch they take, READ_TILE
and WRITE_TILE of one tile against each other, and which tile indices are in range. -/

namespace Sys2Proof.Machine

variable {s t : State}

/-! ### TILE_OFFSET (R161) -/

theorem execTileOffset_noRom (n : Nat) (hv : s.romValid = false) :
    execTileOffset n s = .next (s.withResponse (.err .noRom)) := by
  simp [execTileOffset, hv, raise]

theorem execTileOffset_next (n : Nat) (hv : s.romValid = true) :
    execTileOffset n s = .next (s.withResponse (.ok (.result (tileOff s n)))) := by
  simp [execTileOffset, hv, finish]

/-- Settles O29: ROM_VALID alone decides whether the sum or NoRom is answered. -/
theorem tileOffsetCommandFollowsItsRule : Obligations.TileOffsetCommandFollowsItsRule :=
  fun _ n => ⟨fun data => decode_tileOffset n data, execTileOffset_noRom n, execTileOffset_next n⟩

/-! ### READ_REG (R167) -/

theorem execReadReg_reserved {r : Nat} (hr : 0xB < r) :
    execReadReg r s = .next (s.withResponse (.err .illegalCommand)) := by
  rw [execReadReg, (regOfNumber_eq_none_iff r).mpr hr]; rfl

theorem execReadReg_noRom {g : Reg} (hg : regNeedsRom g = true) (hv : s.romValid = false) :
    execReadReg (regNumber g) s = .next (s.withResponse (.err .noRom)) := by
  simp [execReadReg, hg, hv, raise]

theorem execReadReg_noHeader {g : Reg} (hg : regNeedsHeader g = true) (hv : s.romValid = true)
    (hp : s.headerPresent = false) :
    execReadReg (regNumber g) s = .next (s.withResponse (.err .noHeader)) := by
  simp [execReadReg, hg, hv, hp, raise]

theorem execReadReg_next {g : Reg} (hrom : regNeedsRom g = true → s.romValid = true)
    (hhdr : regNeedsHeader g = true → s.headerPresent = true) :
    execReadReg (regNumber g) s = .next (s.withResponse (.ok (.result (regValue g s)))) := by
  have hrom' : ¬ (regNeedsRom g && !s.romValid) = true := by simpa using hrom
  have hhdr' : ¬ (regNeedsHeader g && !s.headerPresent) = true := by simpa using hhdr
  simp only [execReadReg, regOfNumber_regNumber, if_neg hrom', if_neg hhdr', finish]

/-- Every number up to 0xB is a register's (R35). -/
theorem exists_regNumber_eq {r : Nat} (hr : r ≤ 0xB) : ∃ g, regNumber g = r := by
  cases hg : regOfNumber r with
  | none => exact absurd ((regOfNumber_eq_none_iff r).mp hg) (Nat.not_lt.mpr hr)
  | some g => exact ⟨g, regNumber_of_regOfNumber hg⟩

/-- Settles O36: a number up to 0xB is a register's, and R35's two columns say which error stands
before its value. -/
theorem readRegCommandFollowsItsRule : Obligations.ReadRegCommandFollowsItsRule := by
  refine fun s r => ⟨fun data => decode_readReg r data, execReadReg_reserved,
    fun hr h0 hv => ?noRom, fun hr h4 hv hp => ?noHeader, fun hr hrom hhdr => ?value⟩
  all_goals obtain ⟨g, rfl⟩ := exists_regNumber_eq hr
  case noRom => exact execReadReg_noRom ((regNeedsRom_iff g).mpr h0) hv
  case noHeader => exact execReadReg_noHeader ((regNeedsHeader_iff g).mpr h4) hv hp
  case value =>
    refine ⟨regValue g s, by cases g <;> rfl, execReadReg_next (fun hg => ?_) fun hg => ?_⟩
    · exact hrom.resolve_left ((regNeedsRom_iff g).mp hg)
    · exact hhdr.resolve_left (Nat.not_lt.mpr ((regNeedsHeader_iff g).mp hg))

/-! ### READ_ROM (R168) -/

theorem execReadRom_noRom (a : Nat) (hv : s.romValid = false) :
    execReadRom a s = .next (s.withResponse (.err .noRom)) := by
  simp [execReadRom, hv, raise]

theorem execReadRom_outOfRange {a : Nat} (hv : s.romValid = true) (ha : s.romLength ≤ a) :
    execReadRom a s = .next (s.withResponse (.err .indexOutOfRange)) := by
  simp [execReadRom, hv, ha, raise]

/-- Settles O37: under the invariant every address below ROM_LENGTH has a byte to answer. -/
theorem readRomCommandFollowsItsRule : Obligations.ReadRomCommandFollowsItsRule := by
  refine fun s a => ⟨fun data => decode_readRom a data, execReadRom_noRom a,
    execReadRom_outOfRange, fun h hv ha => ?_⟩
  obtain ⟨b, hb⟩ := h.read_exists ha
  exact ⟨b, hb, execReadRom_of_read hv ha hb⟩

/-! ### READ_TILE (R163) and the tile count (R169) -/

theorem execReadTile_noRom (n : Nat) (hv : s.romValid = false) :
    execReadTile n s = .next (s.withResponse (.err .noRom)) := by
  simp [execReadTile, hv, raise]

theorem execReadTile_outOfRange {n : Nat} (hv : s.romValid = true)
    (hr : s.romLength < tileOff s n + 16) :
    execReadTile n s = .next (s.withResponse (.err .indexOutOfRange)) := by
  simp [execReadTile, hv, inRange, hr, raise]

/-- The byte at each address of a span that was read. -/
theorem Memory.read_of_readSpan {m : Memory} {a n k : Nat} {bs : List Byte}
    (h : Memory.readSpan m a n = some bs) (hk : k < n) :
    Memory.read m (a + k) = some (byteAt bs k) := by
  obtain ⟨hlen, hread⟩ := (Memory.readSpan_eq_some_iff m a n bs).mp h
  rw [hread k hk, getElem?_eq_byteAt (hlen ▸ hk)]

/-- Settles O30: the tile in range decodes from the sixteen bytes of its span, two for each row. -/
theorem readTileCommandFollowsItsRule : Obligations.ReadTileCommandFollowsItsRule := by
  refine fun s n => ⟨fun data => decode_readTile n data, execReadTile_noRom n,
    execReadTile_outOfRange, fun h hv hr => ?_⟩
  obtain ⟨enc, hspan, hnext⟩ := execReadTile_next h hv hr
  refine ⟨_, hnext, decodeTile_length enc, fun v hv => Nat.le_of_lt_succ (decodeTile_lt enc v hv),
    fun y hy x hx => ⟨byteAt enc y, byteAt enc (8 + y), ?_, ?_, ?_⟩⟩
  · exact Memory.read_of_readSpan hspan (by omega)
  · rw [Nat.add_assoc]
    exact Memory.read_of_readSpan hspan (by omega)
  · rw [decodeTile_pixel _ _ _ hy hx, decodePixel_eq, closedPixel_eq]

theorem lt_tileCount_iff (s : State) (n : Nat) :
    n < tileCount s ↔ tileOff s n + 16 ≤ s.romLength := by
  rw [tileCount, tileOff]; omega

/-- Settles O38: an index is below the count exactly when its span ends within the ROM. -/
theorem tileCountBoundsTheIndex : Obligations.TileCountBoundsTheIndex := by
  refine fun s n h hv => ⟨?_, ?_, fun hn => ?_, fun hn => ?_, fun hp => ?_⟩
  · rw [tileCount]
    split <;> omega
  · rw [inRange, decide_eq_true_iff, lt_tileCount_iff]
  · obtain ⟨enc, -, hnext⟩ := execReadTile_next h hv ((lt_tileCount_iff s n).mp hn)
    exact ⟨_, hnext⟩
  · have hr : ¬ tileOff s n + 16 ≤ s.romLength := fun hr =>
      Nat.not_lt.mpr hn ((lt_tileCount_iff s n).mpr hr)
    exact execReadTile_outOfRange hv (Nat.not_le.mp hr)
  · obtain ⟨-, -, hlen, -⟩ := h.headerPresent hp
    exact hlen

/-! ### WRITE_TILE (R164, R165) -/

theorem execWriteTile_noRom (n : Nat) (flat : List Nat) (hv : s.romValid = false) :
    execWriteTile n flat s = .next (s.withResponse (.err .noRom)) := by
  simp [execWriteTile, hv, raise]

theorem execWriteTile_wrongLength (n : Nat) {flat : List Nat} (hv : s.romValid = true)
    (hl : flat.length ≠ 64) :
    execWriteTile n flat s = .next (s.withResponse (.err .invalidInputSize)) := by
  simp [execWriteTile, hv, hl, raise]

theorem execWriteTile_outOfRange {n : Nat} {flat : List Nat} (hv : s.romValid = true)
    (hl : flat.length = 64) (hr : s.romLength < tileOff s n + 16) :
    execWriteTile n flat s = .next (s.withResponse (.err .indexOutOfRange)) := by
  simp [execWriteTile, hv, hl, inRange, hr, raise]

/-- Settles O31: the span just written reads as the encoded tile, whose bytes are R107's row sums,
and only the ROM memory and the response were exchanged. -/
theorem writeTileCommandFollowsItsRule : Obligations.WriteTileCommandFollowsItsRule := by
  refine fun s n flat => ⟨decode_writeTile n flat, execWriteTile_noRom n flat,
    execWriteTile_wrongLength n, execWriteTile_outOfRange, fun h hv hl hr => ?_⟩
  obtain ⟨m, hm, hnext⟩ := execWriteTile_next h hv hl hr
  have hspan (k : Nat) (hk : k < 16) :
      Memory.read m (tileOff s n + k) = (encodeTile flat)[k]? := by
    rw [hm, h.read_writeTileSpan flat hr hk]
  have hother (a : Nat) (ha : a < tileOff s n ∨ tileOff s n + 16 ≤ a) :
      Memory.read m a = Memory.read s.rom a := by
    rw [hm, Memory.read_writeSpan_outside _ _ _ _ (by simpa using ha)]
  refine ⟨_, hnext, rfl, exec_sameRegisters (i := .writeTile n flat) hnext nofun,
    exec_sameHost (i := .writeTile n flat) hnext,
    fun y hy => ⟨plane0Byte flat y, plane1Byte flat y, ?_, plane0Byte_toNat flat y, ?_,
      plane1Byte_toNat flat y⟩, hother⟩
  · exact (hspan y (by omega)).trans (encodeTile_plane0 flat y hy)
  · rw [Nat.add_assoc]
    exact (hspan (8 + y) (by omega)).trans (encodeTile_plane1 flat y hy)

/-! ### Reading and writing one tile (R166) -/

/-- A tile span just written reads as the encoded tile. -/
theorem State.Inv.readSpan_writeTileSpan (h : s.Inv) {n : Nat} (flat : List Nat)
    (hr : tileOff s n + 16 ≤ s.romLength) :
    Memory.readSpan (Memory.writeSpan s.rom (tileOff s n) (encodeTile flat)) (tileOff s n) 16 =
      some (encodeTile flat) :=
  (Memory.readSpan_eq_some_iff _ _ _ _).mpr
    ⟨encodeTile_length flat, fun _ hk => h.read_writeTileSpan flat hr hk⟩

/-- Writing back the bytes read from a span leaves a canonical memory as it is. -/
theorem Memory.writeSpan_of_readSpan {m : Memory} {a n : Nat} {bs : List Byte}
    (hw : Memory.wf m = true) (h : Memory.readSpan m a n = some bs) :
    Memory.writeSpan m a bs = m := by
  obtain ⟨hlen, hread⟩ := (Memory.readSpan_eq_some_iff m a n bs).mp h
  refine Memory.ext_of_wf (by simpa using hw) hw fun x => ?_
  by_cases hx : x < a ∨ a + bs.length ≤ x
  · exact Memory.read_writeSpan_outside _ _ _ _ hx
  · obtain ⟨k, rfl⟩ := Nat.exists_eq_add_of_le (show a ≤ x by omega)
    have hk : k < bs.length := by omega
    rw [Memory.read_writeSpan_inside _ _ _ _ hk, hread k (hlen ▸ hk), List.getElem?_eq_getElem hk,
      Option.map_some]

/-- A command that writes only the ports leaves the state but for the response. -/
theorem exec_withResponse_of_readsOnly {i : Instr} (h : exec i s = .next t)
    (hi : i.readsOnly = true) : ∃ r, t = s.withResponse r := by
  rcases exec_cases h with ⟨_, -, rfl⟩ | ⟨_, rfl⟩ | ⟨_, _, rfl, -⟩ | ⟨_, rfl, -⟩ | ⟨_, rfl, -⟩
  · exact ⟨_, rfl⟩
  · exact ⟨_, rfl⟩
  · cases hi
  · cases hi
  · cases hi

/-- Some command that writes only the ports takes the one state to the other. -/
def State.ReadsTo (u v : State) : Prop := ∃ i : Instr, i.readsOnly = true ∧ exec i u = .next v

/-- Any number of such commands leaves the state but for the response. -/
theorem exists_withResponse_of_reads {r : Response}
    (h : Relation.ReflTransGen State.ReadsTo (s.withResponse r) t) :
    ∃ r', t = s.withResponse r' := by
  induction h with
  | refl => exact ⟨r, rfl⟩
  | tail _ hstep ih =>
    obtain ⟨_, rfl⟩ := ih
    obtain ⟨i, hi, hx⟩ := hstep
    obtain ⟨r', rfl⟩ := exec_withResponse_of_readsOnly hx hi
    exact ⟨r', rfl⟩

/-- A WRITE_TILE that ends, with or without an error, exchanges no more than the ROM memory and the
response, and every other tile's span reads as before. -/
theorem execWriteTile_otherSpans {m : Nat} {tile : List Nat}
    (h : execWriteTile m tile s = .next t) :
    ∃ mem r, t = (s.withRom mem).withResponse r ∧ ∀ n, m ≠ n →
      Memory.readSpan mem (tileOff s n) 16 = Memory.readSpan s.rom (tileOff s n) 16 := by
  rcases execWriteTile_cases h with ⟨-, rfl⟩ | ⟨-, -, rfl⟩ | ⟨-, -, -, rfl⟩ |
    ⟨-, -, -, -, mem, hmem, rfl⟩
  · exact ⟨s.rom, _, rfl, fun _ _ => rfl⟩
  · exact ⟨s.rom, _, rfl, fun _ _ => rfl⟩
  · exact ⟨s.rom, _, rfl, fun _ _ => rfl⟩
  · refine ⟨mem, _, rfl, fun n hmn => ?_⟩
    rw [hmem]
    exact Memory.readSpan_writeSpan_apart _ _ _ _ _ (by simpa using tileOff_apart s hmn)

/-- READ_TILE after the ROM memory was exchanged for one that has the tile's span. -/
theorem execReadTile_withRom {n : Nat} {mem : Memory} {enc : List Byte} (r : Response)
    (hv : s.romValid = true) (hr : tileOff s n + 16 ≤ s.romLength)
    (hspan : Memory.readSpan mem (tileOff s n) 16 = some enc) :
    execReadTile n ((s.withRom mem).withResponse r) =
      .next (((s.withRom mem).withResponse r).withResponse (.ok (.dataOut (decodeTile enc)))) :=
  execReadTile_of_span (by simpa using hv) (by simpa using hr) (by simpa using hspan)

section
variable {n : Nat} (h : s.Inv) (hv : s.romValid = true) (hr : tileOff s n + 16 ≤ s.romLength)
include h hv hr

/-- R166 (a): the span written is the span read. -/
theorem execReadTile_after_execWriteTile_same {tile : List Nat} (hl : tile.length = 64) :
    ∃ s1, execWriteTile n tile s = .next s1 ∧
      execReadTile n s1 = .next (s1.withResponse (.ok (.dataOut (tile.map (· % 4))))) := by
  obtain ⟨m, hm, hwrite⟩ := execWriteTile_next h hv hl hr
  have hspan : Memory.readSpan m (tileOff s n) 16 = some (encodeTile tile) := by
    rw [hm, h.readSpan_writeTileSpan tile hr]
  refine ⟨_, hwrite, ?_⟩
  rw [← decodeTile_encodeTile hl]
  exact execReadTile_withRom _ hv hr hspan

/-- R166 (b): reads between the two leave the span and the registers that place it. -/
theorem execReadTile_after_reads {s1 s2 : State} (h1 : execReadTile n s = .next s1)
    (h2 : Relation.ReflTransGen State.ReadsTo s1 s2) :
    ∃ s3, execReadTile n s2 = .next s3 ∧ s3.response = s1.response := by
  obtain ⟨enc, hspan, hread⟩ := execReadTile_next h hv hr
  obtain rfl := Host.Outcome.next.inj (hread.symm.trans h1)
  obtain ⟨_, rfl⟩ := exists_withResponse_of_reads h2
  exact ⟨_, execReadTile_of_span hv hr hspan, rfl⟩

/-- R166 (c): encoding what was decoded gives the bytes that were read. -/
theorem execWriteTile_after_execReadTile :
    ∃ f s1 s2, execReadTile n s = .next s1 ∧ s1.response = some (.ok (.dataOut f)) ∧
      execWriteTile n f s1 = .next s2 ∧ s2.response = some (.ok .none) ∧ s2.rom = s.rom := by
  obtain ⟨enc, hspan, hread⟩ := execReadTile_next h hv hr
  obtain ⟨hlen, -⟩ := (Memory.readSpan_eq_some_iff _ _ _ _).mp hspan
  obtain ⟨m, hm, hwrite⟩ := execWriteTile_next (h.withResponse (.ok (.dataOut (decodeTile enc))))
    hv (decodeTile_length enc) hr
  rw [State.withResponse_rom, tileOff_withResponse, encodeTile_decodeTile hlen,
    Memory.writeSpan_of_readSpan h.rom_wf hspan] at hm
  exact ⟨_, _, _, hread, rfl, hwrite, rfl, hm⟩

/-- R166 (d): the spans of different tiles are apart. -/
theorem execReadTile_after_execWriteTile_other {m : Nat} {tile : List Nat} {s1 : State}
    (hmn : m ≠ n) (hwrite : execWriteTile m tile s = .next s1) :
    ∃ r, execReadTile n s = .next (s.withResponse r) ∧
      execReadTile n s1 = .next (s1.withResponse r) := by
  obtain ⟨enc, hspan, hread⟩ := execReadTile_next h hv hr
  obtain ⟨mem, r, rfl, hother⟩ := execWriteTile_otherSpans hwrite
  exact ⟨_, hread, execReadTile_withRom r hv hr ((hother n hmn).trans hspan)⟩

end

/-- Settles O32: its four laws, each from the bytes of the one span. -/
theorem tileReadWriteLaws : Obligations.TileReadWriteLaws := fun _ _ h hv hr =>
  ⟨fun _ hl => execReadTile_after_execWriteTile_same h hv hr hl,
    fun _ _ h1 h2 => execReadTile_after_reads h hv hr h1 h2,
    execWriteTile_after_execReadTile h hv hr,
    fun _ _ _ hmn hw => execReadTile_after_execWriteTile_other h hv hr hmn hw⟩

end Sys2Proof.Machine

/-! Errors (60_exceptions.md): what the port shows of one, which commands raise which, in what order,
and what a command that ends with one leaves as it was. -/

namespace Sys2Proof.Machine

variable {s t : State}

/-! ### STATUS codes (R200) -/

theorem errorCode_toNat_lt (e : ErrorCause) : (errorCode e).toNat < 7 := by
  cases e <;> decide

theorem Response.status_toNat_lt (r : Response) : r.status.toNat < 7 := by
  cases r with
  | ok o => simp [Response.status]
  | err e => exact errorCode_toNat_lt e

/-- Settles O17: STATUS is 0 or the code of one of six causes, whatever response a step leaves. -/
theorem statusCodesAreTheSpecs : Obligations.StatusCodesAreTheSpecs :=
  ⟨fun _ => rfl, rfl, rfl, rfl, rfl, rfl, rfl, fun _ _ r _ _ => r.status_toNat_lt⟩

/-! ### Idle (R215) -/

/-- Settles O6: an idle step exchanges the response alone. -/
theorem stepWithoutCommandHoldsTheState : Obligations.StepWithoutCommandHoldsTheState := fun s hp =>
  ⟨s.withoutResponse, step_nil hp, by simp [State.SameRegisters], rfl, hp, rfl, rfl⟩

/-! ### What an error leaves (R202) -/

/-- A command that ends with an error raised it from its row of R201 and wrote the response alone. -/
theorem exec_error {i : Instr} {e : ErrorCause} (h : exec i s = .next t)
    (he : t.response = some (.err e)) :
    mayRaise i.opcode e = true ∧ t = s.withResponse (.err e) := by
  rcases exec_cases h with ⟨e', hrow, rfl⟩ | ⟨_, rfl⟩ | ⟨_, _, -, -, -, -, _, -, rfl⟩ |
    ⟨_, -, -, -, rfl⟩ | ⟨_, -, -, rfl⟩
  · cases he
    exact ⟨hrow, rfl⟩
  all_goals cases he

/-- Settles O40: an error comes from a reserved OPC or from a command that runs, never from an idle
step, and both leave all but the response. -/
theorem errorsChangeNoState : Obligations.ErrorsChangeNoState := by
  intro s t e h he
  rcases step_cases h with ⟨-, rfl⟩ | ⟨c, rest, hp, ⟨-, rfl⟩ | ⟨i, -, -, hx⟩⟩
  · cases he
  · cases he
    exact ⟨c, rest, hp, rfl, rfl, rfl⟩
  · obtain ⟨-, ht⟩ := exec_error hx he
    exact ⟨c, rest, hp, ht, rfl, rfl⟩

/-! ### The order of errors (R204) -/

/-- Settles O41: the decoder gives a reserved OPC no meaning to run, and each meaning checks in the
order its own rule states. -/
theorem firstErrorInOrderIsReported : Obligations.FirstErrorInOrderIsReported := by
  intro s
  obtain ⟨-, hreserved⟩ := reservedOpcodesEndWithIllegalCommand
  refine ⟨hreserved s, fun _ => execReadReg_reserved, fun r => ?regNoRom, fun r => ?regNoHeader,
    execTileOffset_noRom, execReadTile_noRom, fun _ => execReadTile_outOfRange,
    execWriteTile_noRom, fun n _ => execWriteTile_wrongLength n,
    fun _ _ => execWriteTile_outOfRange, execReadRom_noRom, fun _ => execReadRom_outOfRange,
    fun _ => execDecode_wrongLength, fun _ => execEncode_wrongLength,
    fun buf hm => execParse_malformed ((hasMagic_iff buf).mpr hm)⟩
  all_goals obtain ⟨-, -, hnoRom, hnoHeader, -⟩ := readRegCommandFollowsItsRule s r
  case regNoRom => exact hnoRom
  case regNoHeader => exact hnoHeader

/-! ### Each error of the table is raised (R201) -/

/-- A ROM of no bytes is installed: every index is out of range, and there is no header. -/
def State.emptyRom : State := (State.reset.installRom []).clearHeader

/-- PARSE of the empty buffer leads there (R130). -/
theorem execParse_nil_reset :
    execParse [] State.reset = .next (State.emptyRom.withResponse (.ok .none)) :=
  execParse_headerless rfl

theorem State.reset_inv : State.reset.Inv := State.resetWith_inv rfl

theorem State.emptyRom_inv : State.emptyRom.Inv := State.reset_inv.installHeaderless rfl

/-- Some command with the opcode ends with the error, from some state with the invariant. -/
def Raisable (op : Opcode) (e : ErrorCause) : Prop :=
  ∃ (i : Instr) (s : State), i.opcode = op ∧ s.Inv ∧ exec i s = .next (s.withResponse (.err e))

/-- A sequence of the wrong length raises the size errors; before any PARSE the ROM-dependent commands
raise NoRom; with the empty ROM installed come the range errors and NoHeader. -/
theorem raisable_of_mayRaise {op : Opcode} {e : ErrorCause} (h : mayRaise op e = true) :
    Raisable op e := by
  have reset := State.reset_inv
  have empty := State.emptyRom_inv
  cases op <;> simp only [mayRaise, Bool.or_eq_true, beq_iff_eq] at h
  case parse =>
    subst h
    exact ⟨.parse [0x4E, 0x45, 0x53, 0x1A], _, rfl, reset, execParse_malformed rfl (by decide)⟩
  case decode =>
    subst h
    exact ⟨.decode [], _, rfl, reset, execDecode_wrongLength (by decide)⟩
  case encode =>
    subst h
    exact ⟨.encode [], _, rfl, reset, execEncode_wrongLength (by decide)⟩
  case tileOffset =>
    subst h
    exact ⟨.tileOffset 0, _, rfl, reset, execTileOffset_noRom 0 rfl⟩
  case readTile =>
    rcases h with rfl | rfl
    · exact ⟨.readTile 0, _, rfl, reset, execReadTile_noRom 0 rfl⟩
    · exact ⟨.readTile 0, _, rfl, empty, execReadTile_outOfRange rfl (by decide)⟩
  case writeTile =>
    rcases h with (rfl | rfl) | rfl
    · exact ⟨.writeTile 0 [], _, rfl, reset, execWriteTile_noRom 0 [] rfl⟩
    · exact ⟨.writeTile 0 [], _, rfl, empty, execWriteTile_wrongLength 0 rfl (by decide)⟩
    · exact ⟨.writeTile 0 (List.replicate 64 0), _, rfl, empty,
        execWriteTile_outOfRange rfl List.length_replicate (by decide)⟩
  case readReg =>
    rcases h with (rfl | rfl) | rfl
    · exact ⟨.readReg 0xC, _, rfl, reset, execReadReg_reserved (r := 0xC) (by decide)⟩
    · exact ⟨.readReg 1, _, rfl, reset,
        execReadReg_noRom (g := .romLength) (s := .reset) rfl rfl⟩
    · exact ⟨.readReg 4, _, rfl, empty,
        execReadReg_noHeader (g := .prgRomSize) (s := .emptyRom) rfl rfl rfl⟩
  case readRom =>
    rcases h with rfl | rfl
    · exact ⟨.readRom 0, _, rfl, reset, execReadRom_noRom 0 rfl⟩
    · exact ⟨.readRom 0, _, rfl, empty, execReadRom_outOfRange rfl (by decide)⟩

/-- Settles O39: an error that ends a command is in its row, and reset and the empty ROM show every
error of every row. -/
theorem commandsRaiseTheErrorsOfTheirRow : Obligations.CommandsRaiseTheErrorsOfTheirRow := by
  refine ⟨fun i s t e h he => ?_, fun _ _ => raisable_of_mayRaise, fun _ _ => issue_reserved⟩
  obtain ⟨hrow, -⟩ := exec_error h he
  exact hrow

end Sys2Proof.Machine

/-! Reset and hazards (70_reset_and_hazards.md): what holds before the first PARSE, and two tile
writes in either order. -/

namespace Sys2Proof.Machine

variable {s : State}

/-! ### Writes apart commute (R235) -/

theorem Memory.overwrite_comm (m : Memory) {a b : Nat} (hab : a ≠ b) (v w : Byte) :
    Memory.overwrite (Memory.overwrite m a v) b w =
      Memory.overwrite (Memory.overwrite m b w) a v := by
  simp only [Memory.overwrite, List.map_map]
  refine List.map_congr_left fun cell _ => ?_
  by_cases ha : cell.1 = a
  · simp [ha, hab]
  · by_cases hb : cell.1 = b <;> simp [ha, hb, hab.symm]

/-- A byte outside a span can be overwritten before or after the span. -/
theorem Memory.writeSpan_overwrite (m : Memory) {a x : Nat} (v : Byte) {vs : List Byte}
    (hx : x < a ∨ a + vs.length ≤ x) :
    Memory.writeSpan (Memory.overwrite m x v) a vs =
      Memory.overwrite (Memory.writeSpan m a vs) x v := by
  induction vs generalizing m a with
  | nil => rfl
  | cons w ws ih =>
    rw [List.length_cons] at hx
    rw [Memory.writeSpan, Memory.writeSpan, Memory.overwrite_comm m (by omega), ih _ (by omega)]

/-- Spans apart can be written in either order. -/
theorem Memory.writeSpan_comm (m : Memory) {a b : Nat} {vs ws : List Byte}
    (hab : a + vs.length ≤ b ∨ b + ws.length ≤ a) :
    Memory.writeSpan (Memory.writeSpan m a vs) b ws =
      Memory.writeSpan (Memory.writeSpan m b ws) a vs := by
  induction ws generalizing m b with
  | nil => rfl
  | cons w ws ih =>
    rw [List.length_cons] at hab
    rw [Memory.writeSpan, Memory.writeSpan, ← Memory.writeSpan_overwrite m w (by omega),
      ih _ (by omega)]

theorem State.withRom_withResponse (r : Response) (m : Memory) :
    (s.withResponse r).withRom m = (s.withRom m).withResponse r := rfl

/-- Two tile writes in a row leave both spans written and the second write's response. -/
theorem execWriteTile_after_execWriteTile (h : s.Inv) {m n : Nat} {t u : List Nat}
    (hv : s.romValid = true) (ht : t.length = 64) (hu : u.length = 64)
    (hm : tileOff s m + 16 ≤ s.romLength) (hn : tileOff s n + 16 ≤ s.romLength) :
    ∃ s1, execWriteTile m t s = .next s1 ∧
      execWriteTile n u s1 = .next ((s.withRom (Memory.writeSpan
        (Memory.writeSpan s.rom (tileOff s m) (encodeTile t))
        (tileOff s n) (encodeTile u))).withResponse (.ok .none)) := by
  obtain ⟨_, rfl, hfirst⟩ := execWriteTile_next h hv ht hm
  obtain ⟨_, rfl, hsecond⟩ :=
    execWriteTile_next ((h.writeTileSpan m _).withResponse (.ok .none)) hv hu hn
  rw [State.withRom_withResponse, State.withRom_withRom, State.withResponse_withResponse,
    State.withResponse_rom, State.withRom_rom, tileOff_withResponse, tileOff_withRom] at hsecond
  exact ⟨_, hfirst, hsecond⟩

/-- Settles O33: either order writes the same two spans, which are apart. -/
theorem writesToDifferentTilesCommute : Obligations.WritesToDifferentTilesCommute := by
  intro s m n t u h hv hmn ht hu hm hn
  obtain ⟨s1, h1, h3⟩ := execWriteTile_after_execWriteTile h hv ht hu hm hn
  obtain ⟨s2, h2, h3'⟩ := execWriteTile_after_execWriteTile h hv hu ht hn hm
  rw [Memory.writeSpan_comm _ (by simpa using tileOff_apart s hmn.symm)] at h3'
  exact ⟨s1, s2, _, h1, h3, h2, h3'⟩

/-! ### Before the first PARSE (R231, R232) -/

/-- READ_REG with no ROM: every register number but that of ROM_VALID raises NoRom (R35). -/
theorem execReadReg_eq_noRom_iff (hv : s.romValid = false) (r : Nat) :
    execReadReg r s = .next (s.withResponse (.err .noRom)) ↔ 1 ≤ r ∧ r ≤ 0xB := by
  constructor
  · intro hx
    rcases execReadReg_cases hx with ⟨-, heq⟩ | ⟨hr, h0, -⟩ | ⟨-, -, -, -, heq⟩ | ⟨_, -, -, -, heq⟩
    · cases congrArg State.response heq
    · exact ⟨Nat.one_le_iff_ne_zero.mpr h0, hr⟩
    · cases congrArg State.response heq
    · cases congrArg State.response heq
  · rintro ⟨h1, hr⟩
    obtain ⟨g, rfl⟩ := exists_regNumber_eq hr
    exact execReadReg_noRom ((regNeedsRom_iff g).mpr (Nat.one_le_iff_ne_zero.mp h1)) hv

/-- READ_REG 0 needs no ROM, and with none it answers 0. -/
theorem execReadReg_zero_of_noRom (hv : s.romValid = false) :
    execReadReg 0 s = .next (s.withResponse (.ok (.result 0))) := by
  have hread := execReadReg_next (s := s) (g := .romValid) nofun nofun
  rwa [regValue, hv] at hread

/-- The commands that need a ROM (R231), READ_REG by its register numbers. -/
theorem exec_eq_noRom_iff (hv : s.romValid = false) (i : Instr) :
    ((∃ n, i = .tileOffset n) ∨ (∃ n, i = .readTile n) ∨ (∃ n flat, i = .writeTile n flat) ∨
      (∃ a, i = .readRom a) ∨ (∃ r, 1 ≤ r ∧ r ≤ 0xB ∧ i = .readReg r)) ↔
    exec i s = .next (s.withResponse (.err .noRom)) := by
  constructor
  · rintro (⟨n, rfl⟩ | ⟨n, rfl⟩ | ⟨n, flat, rfl⟩ | ⟨a, rfl⟩ | ⟨r, h1, hr, rfl⟩)
    · exact execTileOffset_noRom n hv
    · exact execReadTile_noRom n hv
    · exact execWriteTile_noRom n flat hv
    · exact execReadRom_noRom a hv
    · exact (execReadReg_eq_noRom_iff hv r).mpr ⟨h1, hr⟩
  · intro hx
    obtain ⟨hrow, -⟩ := exec_error hx rfl
    cases i with
    | parse | decode | encode => cases hrow
    | tileOffset n => exact .inl ⟨n, rfl⟩
    | readTile n => exact .inr (.inl ⟨n, rfl⟩)
    | writeTile n flat => exact .inr (.inr (.inl ⟨n, flat, rfl⟩))
    | readRom a => exact .inr (.inr (.inr (.inl ⟨a, rfl⟩)))
    | readReg r =>
      obtain ⟨h1, hr⟩ := (execReadReg_eq_noRom_iff hv r).mp hx
      exact .inr (.inr (.inr (.inr ⟨r, h1, hr, rfl⟩)))

/-- PARSE installs a buffer without the magic, and one long enough to have a header (R130). -/
theorem execParse_installs {buf : List Byte}
    (hb : buf.take 4 ≠ [0x4E, 0x45, 0x53, 0x1A] ∨ 16 ≤ buf.length) :
    ∃ t, execParse buf s = .next t ∧ t.response = some (.ok .none) ∧ t.romValid = true := by
  cases hm : hasMagic buf with
  | false => exact ⟨_, execParse_headerless hm, rfl, rfl⟩
  | true =>
    have hl : 16 ≤ buf.length := hb.resolve_left (not_not.mpr ((hasMagic_iff buf).mp hm))
    exact ⟨_, execParse_header hm hl, rfl, rfl⟩

/-- Settles O42: NoRom is in the rows of the ROM-dependent commands alone, and the codec, READ_REG 0
and PARSE check no ROM_VALID. -/
theorem onlyRomDependentCommandsRaiseNoRom : Obligations.OnlyRomDependentCommandsRaiseNoRom :=
  fun _ hv => ⟨exec_eq_noRom_iff hv,
    fun enc hl => ⟨decodeTile enc, decodeTile_length enc, fun _ => execDecode_next hl⟩,
    fun flat hl => ⟨(encodeTile flat).map BitVec.toNat, by simp, fun _ => execEncode_next hl⟩,
    execReadReg_zero_of_noRom hv, fun _ => execParse_installs⟩

/-! ### Reset (R230) -/

theorem State.resetWith_headerZero (p : Params) : (State.resetWith p).HeaderZero := by
  simp [State.HeaderZero]

/-- Settles O1: the reset state holds R35's values, and READ_REG shows of it what it shows of any
state with no ROM. -/
theorem resetHoldsTheSpecsValues : Obligations.ResetHoldsTheSpecsValues :=
  ⟨rfl, fun p => ⟨rfl, rfl, rfl, rfl, rfl, State.resetWith_headerZero p,
    execReadReg_zero_of_noRom rfl, fun r h1 hr => (execReadReg_eq_noRom_iff rfl r).mpr ⟨h1, hr⟩⟩⟩

end Sys2Proof.Machine
